-- ==== Sys2Proof/Word.lean ====
section
/-! DEFINITION. The word, byte and register-number types: one width each, as the manual has one width for each
(R7: byte 8 bits, word 32 bits; R10: a register number is a 5-bit field and every value 0 to 31 is legal). -/

namespace Sys2Proof

/-- A 32-bit word: a general register, the program counter, a virtual address, an instruction word (R7, R10, R14). -/
abbrev Word := BitVec 32

/-- An 8-bit byte, the addressable unit (R7, R20). -/
abbrev Byte := BitVec 8

/-- A register number as an instruction field carries it: 5 bits, all 32 values legal (R10). -/
abbrev RegNum := BitVec 5

end Sys2Proof
end

