-- ==== Sys2Proof/Config.lean ====
section
/-! DEFINITION. What one implementation fixes: the parameters of rule R5 (`PROFILE`, `SEGMAP`, `PA_BITS`, `PHYSMAP`,
`TEXT`, `END_PC`) as plain data with the defaults the spec gives, and the one free value of the model (what the
environment answers to a device read, R45). -/

namespace Sys2Proof

/-- The names of the 34 instructions, in the order of the opcode table (R2, R72). -/
inductive Mnemonic where
  | add | addi | addu | addiu | sub | slt | mul
  | and | andi | lui | or | ori | xor | xori
  | sllv | sll | srav | sra | srlv | srl
  | beq | bne | bgez | bgtz | blez | bltz | j | jal | jr | jalr
  | lb | lw | sb | sw
  deriving DecidableEq, Repr

/-- The random arithmetic pick of a C2 subset (R5). -/
inductive C2Arith where
  | add | addi | sub | slt
  deriving DecidableEq, Repr

/-- The random shift pick of a C2 subset (R5). -/
inductive C2Shift where
  | sllv | srav | sra | srlv
  deriving DecidableEq, Repr

/-- The random branch or jump pick of a C2 subset (R5). -/
inductive C2Branch where
  | jalr | bgez | blez | bltz
  deriving DecidableEq, Repr

/-- `PROFILE` (R5, D4): which of the 34 instructions the processor implements. -/
inductive Profile where
  | full34
  | c1
  | c2 (a : C2Arith) (s : C2Shift) (b : C2Branch)
  | c3
  deriving DecidableEq, Repr

/-- The instruction a C2 arithmetic pick names. -/
def C2Arith.mnemonic : C2Arith → Mnemonic
  | .add => .add
  | .addi => .addi
  | .sub => .sub
  | .slt => .slt

/-- The instruction a C2 shift pick names. -/
def C2Shift.mnemonic : C2Shift → Mnemonic
  | .sllv => .sllv
  | .srav => .srav
  | .sra => .sra
  | .srlv => .srlv

/-- The instruction a C2 branch or jump pick names. -/
def C2Branch.mnemonic : C2Branch → Mnemonic
  | .jalr => .jalr
  | .bgez => .bgez
  | .blez => .blez
  | .bltz => .bltz

/-- The instructions of a profile, as the source's front matter lists them (R5). -/
def Profile.mnemonics : Profile → List Mnemonic
  | .full34 =>
      [.add, .addi, .addu, .addiu, .sub, .slt, .mul] ++ [.and, .andi, .lui, .or, .ori, .xor, .xori] ++
      [.sllv, .sll, .srav, .sra, .srlv, .srl] ++
      [.beq, .bne, .bgez, .bgtz, .blez, .bltz, .j, .jal, .jr, .jalr] ++ [.lb, .lw, .sb, .sw]
  | .c1 => [.ori, .addu, .bne, .lw, .sw]
  | .c2 a s b =>
      [.ori, .addu, .bne, .lw, .sw, .andi, .or, .xor, .addiu, .beq, .lb, .sb] ++
      [a.mnemonic, s.mnemonic, b.mnemonic]
  | .c3 =>
      [.addu, .addiu, .mul, .and, .andi, .lui, .or, .ori, .xor, .xori, .sll, .srl] ++
      [.beq, .bne, .bgtz, .j, .jal, .jr, .lb, .lw, .sb, .sw]

/-- Direction of an access, as the fault information records it (R212, R216). -/
inductive AccessDir where
  | load | store | fetch
  deriving DecidableEq, Repr

/-- The source's second argument of `AddressTranslation` (R41). -/
inductive AccessKind where
  | data | instruction
  deriving DecidableEq, Repr

/-- The access type `AddressTranslation` yields beside the address: the one value the spec gives it (R38, D9). -/
inductive Cca where
  | uncached
  deriving DecidableEq, Repr

/-- One row of `SEGMAP`: `size` bytes of virtual space from `vbase`, mapped linearly to physical space from `pbase` (R41).
The name has no effect. -/
structure Segment where
  name  : String
  vbase : Nat
  size  : Nat
  pbase : Nat
  deriving DecidableEq, Repr

/-- `SEGMAP` (R41): exactly five segments, listed by rising virtual base. What makes it legal is `SegMap.wellFormed`. -/
structure SegMap where
  seg0 : Segment
  seg1 : Segment
  seg2 : Segment
  seg3 : Segment
  seg4 : Segment
  deriving DecidableEq, Repr

/-- The five rows as a list. -/
def SegMap.segments (m : SegMap) : List Segment := [m.seg0, m.seg1, m.seg2, m.seg3, m.seg4]

/-- The default `SEGMAP` the spec recommends (R42, D8): MIPS32's segments with the identity map for the lowest.
PRESUMED (assumption 6, unsafe): the spec marks it as general knowledge, the source's figure 4-1 being lost. -/
def SegMap.mips32 : SegMap where
  seg0 := ⟨"kuseg", 0x00000000, 0x80000000, 0x00000000⟩
  seg1 := ⟨"kseg0", 0x80000000, 0x20000000, 0x00000000⟩
  seg2 := ⟨"kseg1", 0xA0000000, 0x20000000, 0x00000000⟩
  seg3 := ⟨"kseg2", 0xC0000000, 0x20000000, 0xC0000000⟩
  seg4 := ⟨"kseg3", 0xE0000000, 0x20000000, 0xE0000000⟩

/-- What stands at a physical address (R45). -/
inductive Region where
  | ram | device | nothing
  deriving DecidableEq, Repr

/-- `size` physical addresses from `base`. -/
structure PhysRange where
  base : Nat
  size : Nat
  deriving DecidableEq, Repr

/-- One row of `PHYSMAP`: a range of physical addresses and what stands there (R45). -/
structure PhysRow where
  range  : PhysRange
  region : Region
  deriving DecidableEq, Repr

/-- `PHYSMAP` (R45): the first row that holds an address decides, and `elsewhere` decides for the rest, so that every
physical address has exactly one region. -/
structure PhysMap where
  rows      : List PhysRow
  elsewhere : Region
  deriving DecidableEq, Repr

/-- The configuration of one machine (R5, R22): fixed for the machine, written by no step. -/
structure Config where
  profile : Profile
  segmap  : SegMap
  physmap : PhysMap
  /-- `TEXT` (R49): the physical addresses that hold program text. -/
  text    : List PhysRange
  /-- `END_PC` (R244), where one is given: it ends a run (Safety.lean), no step reads it. -/
  endPc   : Option Word
  deriving DecidableEq, Repr

/-- `PA_BITS` (R5, R44, D21). -/
def Config.paBits : Nat := 32

/-- The spec's defaults: all 34 instructions, the recommended segment map, all RAM (R5, R42, R45). `TEXT` defaults to the
bytes of the program image (R49), which is empty where no image is loaded; `END_PC` has no default (R244). -/
def Config.default : Config where
  profile := .full34
  segmap  := .mips32
  physmap := ⟨[], .ram⟩
  text    := []
  endPc   := none

/-- FREE VALUE (assumption 11, safe): what the environment supplies to the `n`-th device read of a run, "under no law
(a draw); may differ on each read" (R45, D10, U10). It has no body: no proof can see a value of it. A byte read takes
its low 8 bits. -/
opaque Config.deviceDraw : Nat → Word

end Sys2Proof
end

