-- ==== Sys2Proof/Machine/State.lean ====
section
/-! DEFINITION. The state of the machine (R22), the reasons a step can stop, and the state after reset (R240 to R243). -/

namespace Sys2Proof.Machine

/-- The storage of `x[1]` to `x[31]`, register number less one (R10, R22); `x[0]` has none, it is hardwired (R11).
Read and written through `RegFile.read` and `RegFile.write` alone. -/
abbrev RegFile := Vector Word 31

/-- Physical memory `Mem` (R44) as the cells that differ from what an unlisted address reads as, addresses rising. -/
abbrev Memory := List Host.Cell

/-- `kind` and `info` of a fault state (R19, R214 to R217): what a `raise` records. -/
inductive Cause where
  /-- ADD, ADDI, SUB: the result does not fit in 32 bits; records the pc (R211). -/
  | integerOverflow (pc : Word)
  /-- LW, SW: a virtual address that is no multiple of 4 (R212); the fetch: a pc that is none (R17). -/
  | addressError (dir : AccessDir) (addr : Word)
  /-- The decoder: the fetched word is no instruction of `PROFILE` (R76, R215). -/
  | reservedInstruction (word : Word)
  /-- One of the ten control transfers with `pending != none`; records the pc (R161, R216). -/
  | controlTransferInDelaySlot (pc : Word)
  /-- SB, SW: a physical byte of the access is in `TEXT`; records the virtual address (R37, R49). -/
  | storeToText (addr : Word)
  /-- An access to a `Nothing` region, or a fetch from what is no RAM (R36, R37, R39, R45). -/
  | unmapped (dir : AccessDir) (addr : Word)
  deriving DecidableEq, Repr

/-- `status` (R19). -/
inductive Status where
  | running
  | fault (c : Cause)
  deriving DecidableEq, Repr

/-- One output event: the `(pa, n, v)` a store to a `Device` region hands to the environment (R37, R45). -/
inductive DeviceWrite where
  | byte (pa : Nat) (v : Byte)
  | word (pa : Nat) (v : Word)
  deriving DecidableEq, Repr

/-- Why the machine stops. -/
inductive Fault where
  /-- Raised by `step` alone, in a state whose `status` is already a fault: "With `status = Fault` there is no step"
  (R22, R214, R224). Safe: nothing is claimed of what real hardware does after a raise (assumption 1). -/
  | stopped (c : Cause)
  deriving DecidableEq, Repr

/-- Why an instruction has no meaning. -/
inductive Refusal where
  /-- Raised by `exec` for an instruction whose meaning is not written yet: none, all 34 have theirs. Safe. -/
  | notModelled (mnemonic : String)
  deriving DecidableEq, Repr

/-- The state (R22): `x[1..31]`, `pc`, `pending`, `Mem`, `status`; the fixed configuration the rules read, which no step
writes (assumption 2); and the two counters of the model's own through which a device region meets the environment
(assumptions 11, 12). -/
structure State where
  /-- `PROFILE`, `SEGMAP`, `PHYSMAP`, `TEXT`, `END_PC` (R5): no step writes it. -/
  cfg     : Config
  /-- `x[1]` to `x[31]` (R10). -/
  gpr     : RegFile
  /-- The virtual address of the instruction being executed (R14). -/
  pc      : Word
  /-- The branch-delay state: `some t` when the instruction at `pc` is in a delay slot and control goes to `t` after it
  (R16). -/
  pending : Option Word
  /-- Physical memory (R44). -/
  mem     : Memory
  /-- `Running` or `Fault(kind, info)` (R19). -/
  status  : Status
  /-- The model's own: how many device reads have been made; picks the next free value (R45). -/
  draws   : Nat
  /-- The model's own: what has been handed to the environment by device writes, oldest first (R37, R45). -/
  outputs : List DeviceWrite
  deriving DecidableEq, Repr

/-- What a run is launched with (R240, R241, R243): the configuration, `RESET_PC`, `INIT_GPR`, the launch image. -/
structure Launch where
  cfg     : Config
  resetPc : Word
  initGpr : RegFile
  image   : Memory
  deriving DecidableEq, Repr

/-- The machine after reset under given launch parameters: `pending = none` and `status = Running` (R242), the rest as
launched (R240, R241, R243). -/
def State.launch (l : Launch) : State where
  cfg     := l.cfg
  gpr     := l.initGpr
  pc      := l.resetPc
  pending := none
  mem     := l.image
  status  := .running
  draws   := 0
  outputs := []

/-- The values the model takes where the spec leaves a parameter of the launch open. DESIGN CHOICE (assumptions 3, 4, 5,
unsafe): `RESET_PC` is the one the spec's own programs use, registers are zero, no image is loaded. -/
def Launch.default : Launch where
  cfg     := .default
  resetPc := 0x80000000
  initGpr := Vector.replicate 31 0
  image   := []

/-- The machine right after reset (R240 to R243). -/
def State.reset : State := State.launch Launch.default

end Sys2Proof.Machine
end

