-- ==== Sys2Proof/Machine/AddressMap.lean ====
section
/-! DEFINITION. The fixed mapping from virtual to physical addresses (R41), what stands at a physical address (R45), and
the set `TEXT` (R49). -/

namespace Sys2Proof.Machine

/-- The segment holds the virtual address (R41: `vbase <= vaddr <= vbase + size - 1`). -/
def segmentHolds (g : Segment) (va : Nat) : Bool := g.vbase ≤ va && va < g.vbase + g.size

/-- The segment of a virtual address. The fifth is what the first four leave, so the function is total; on a legal
segment map it is the one segment that holds the address (R41). -/
def segmentOf (m : SegMap) (va : Nat) : Segment :=
  if segmentHolds m.seg0 va then m.seg0
  else if segmentHolds m.seg1 va then m.seg1
  else if segmentHolds m.seg2 va then m.seg2
  else if segmentHolds m.seg3 va then m.seg3
  else m.seg4

/-- The physical address of a virtual one: `pbase + (vaddr - vbase)` (R41). -/
def physAddr (c : Config) (va : Word) : Nat :=
  (segmentOf c.segmap va.toNat).pbase + (va.toNat - (segmentOf c.segmap va.toNat).vbase)

/-- The source's `AddressTranslation` (R41): it depends on neither `kind` nor `dir`, reads no state and never raises. -/
def translate (c : Config) (va : Word) (_kind : AccessKind) (_dir : AccessDir) : Nat × Cca :=
  (physAddr c va, .uncached)

/-- A physical address lies in a range. -/
def rangeHolds (r : PhysRange) (pa : Nat) : Bool := r.base ≤ pa && pa < r.base + r.size

/-- The region of the first row that holds the address, or of none (R45). -/
def regionOfRows : List PhysRow → Region → Nat → Region
  | [], elsewhere, _ => elsewhere
  | row :: rows, elsewhere, pa => if rangeHolds row.range pa then row.region else regionOfRows rows elsewhere pa

/-- `Region(pa)` (R45). An address at or above 2^PA_BITS is no physical address (R44): nothing stands there. -/
def regionOf (c : Config) (pa : Nat) : Region :=
  if pa < 2 ^ Config.paBits then regionOfRows c.physmap.rows c.physmap.elsewhere pa else .nothing

/-- `pa in TEXT` (R49). -/
def inText (c : Config) (pa : Nat) : Bool := c.text.any fun r => rangeHolds r pa

end Sys2Proof.Machine
end

