-- ==== Sys2Proof/Machine/Flags.lean ====
section
/-! DEFINITION. The hardware has no flags (R18); what stands here is the one condition its arithmetic detects, signed
overflow, by the source's 33-bit test (R101, R211). -/

namespace Sys2Proof.Machine

/-- `a[31] || a[31:0]`: a register operand widened to 33 bits (R101). -/
def sext33 (a : Word) : BitVec 33 := a.signExtend 33

/-- `sext_33(imm)`: ADDI's immediate widened to 33 bits (R104, conflict C8). -/
def sext33Imm (imm : BitVec 16) : BitVec 33 := imm.signExtend 33

/-- `tmp[32] != tmp[31]` (R101, R211). -/
def overflows (tmp : BitVec 33) : Bool := tmp.getLsbD 32 != tmp.getLsbD 31

/-- `tmp[31:0]` (R103, R104, R107). -/
def low32 (tmp : BitVec 33) : Word := tmp.setWidth 32

end Sys2Proof.Machine
end

