-- ==== Sys2Proof/Syntax.lean ====
section
/-! DEFINITION. The 34 instructions of the opcode table (R72), operands in the order of their assembly formats (R79). -/

namespace Sys2Proof

/-- One constructor per row of spec/opcode_table.json. Every field holds exactly the values its encoding admits, so
every term is an instruction of the full instruction set (R10, R65 to R70). -/
inductive Instr where
  | add   (rd rs rt : RegNum)
  | addi  (rt rs : RegNum) (imm : BitVec 16)
  | addu  (rd rs rt : RegNum)
  | addiu (rt rs : RegNum) (imm : BitVec 16)
  | sub   (rd rs rt : RegNum)
  | slt   (rd rs rt : RegNum)
  | mul   (rd rs rt : RegNum)
  | and   (rd rs rt : RegNum)
  | andi  (rt rs : RegNum) (imm : BitVec 16)
  | lui   (rt : RegNum) (imm : BitVec 16)
  | or    (rd rs rt : RegNum)
  | ori   (rt rs : RegNum) (imm : BitVec 16)
  | xor   (rd rs rt : RegNum)
  | xori  (rt rs : RegNum) (imm : BitVec 16)
  | sllv  (rd rt rs : RegNum)
  | sll   (rd rt : RegNum) (sa : BitVec 5)
  | srav  (rd rt rs : RegNum)
  | sra   (rd rt : RegNum) (sa : BitVec 5)
  | srlv  (rd rt rs : RegNum)
  | srl   (rd rt : RegNum) (sa : BitVec 5)
  | beq   (rs rt : RegNum) (offset : BitVec 16)
  | bne   (rs rt : RegNum) (offset : BitVec 16)
  | bgez  (rs : RegNum) (offset : BitVec 16)
  | bgtz  (rs : RegNum) (offset : BitVec 16)
  | blez  (rs : RegNum) (offset : BitVec 16)
  | bltz  (rs : RegNum) (offset : BitVec 16)
  | j     (index : BitVec 26)
  | jal   (index : BitVec 26)
  | jr    (rs : RegNum)
  | jalr  (rd rs : RegNum)
  | lb    (rt : RegNum) (offset : BitVec 16) (base : RegNum)
  | lw    (rt : RegNum) (offset : BitVec 16) (base : RegNum)
  | sb    (rt : RegNum) (offset : BitVec 16) (base : RegNum)
  | sw    (rt : RegNum) (offset : BitVec 16) (base : RegNum)
  deriving DecidableEq, Repr

/-- The row of the opcode table an instruction belongs to. -/
def Instr.mnemonic : Instr → Mnemonic
  | .add _ _ _ => .add
  | .addi _ _ _ => .addi
  | .addu _ _ _ => .addu
  | .addiu _ _ _ => .addiu
  | .sub _ _ _ => .sub
  | .slt _ _ _ => .slt
  | .mul _ _ _ => .mul
  | .and _ _ _ => .and
  | .andi _ _ _ => .andi
  | .lui _ _ => .lui
  | .or _ _ _ => .or
  | .ori _ _ _ => .ori
  | .xor _ _ _ => .xor
  | .xori _ _ _ => .xori
  | .sllv _ _ _ => .sllv
  | .sll _ _ _ => .sll
  | .srav _ _ _ => .srav
  | .sra _ _ _ => .sra
  | .srlv _ _ _ => .srlv
  | .srl _ _ _ => .srl
  | .beq _ _ _ => .beq
  | .bne _ _ _ => .bne
  | .bgez _ _ => .bgez
  | .bgtz _ _ => .bgtz
  | .blez _ _ => .blez
  | .bltz _ _ => .bltz
  | .j _ => .j
  | .jal _ => .jal
  | .jr _ => .jr
  | .jalr _ _ => .jalr
  | .lb _ _ _ => .lb
  | .lw _ _ _ => .lw
  | .sb _ _ _ => .sb
  | .sw _ _ _ => .sw

/-- The ten instructions that have a delay slot (R16, R160). -/
def Instr.isControlTransfer (i : Instr) : Bool :=
  i.mnemonic ∈ [Mnemonic.beq, .bne, .bgez, .bgtz, .blez, .bltz, .j, .jal, .jr, .jalr]

/-- The two instructions that write memory (R44). -/
def Instr.isStore (i : Instr) : Bool := i.mnemonic ∈ [Mnemonic.sb, .sw]

end Sys2Proof
end

