-- ==== Sys2Proof/WellFormed.lean ====
section
/-! DEFINITION. The checks: an instruction is well formed for a profile when the profile implements it (R5, R76), and a
segment map is legal when it is what R41 says a `SEGMAP` is. Operand ranges need no check: the field types of `Instr`
hold only what the encodings admit. -/

namespace Sys2Proof

/-- The processor of profile `p` implements `i` (R5); otherwise its words are reserved there (R76). -/
def Instr.wellFormed (p : Profile) (i : Instr) : Bool := i.mnemonic ∈ p.mnemonics

/-- A segment is legal: not empty, its physical range inside the physical space (R44), and its bases and size multiples
of 4, so that an aligned word lies in one segment (R36: "each is far larger and more aligned than 4 bytes"). -/
def Segment.wellFormed (g : Segment) : Bool :=
  0 < g.size && g.pbase + g.size ≤ 2 ^ Config.paBits && g.vbase % 4 == 0 && g.size % 4 == 0 && g.pbase % 4 == 0

/-- The segments follow one another without gap or overlap from 0 to 2^32 (R41: disjoint, together covering
0x0000_0000 to 0xFFFF_FFFF). -/
def SegMap.covers (m : SegMap) : Bool :=
  m.seg0.vbase == 0 && m.seg1.vbase == m.seg0.vbase + m.seg0.size && m.seg2.vbase == m.seg1.vbase + m.seg1.size &&
  m.seg3.vbase == m.seg2.vbase + m.seg2.size && m.seg4.vbase == m.seg3.vbase + m.seg3.size &&
  m.seg4.vbase + m.seg4.size == 2 ^ 32

/-- A legal `SEGMAP` (R41). -/
def SegMap.wellFormed (m : SegMap) : Bool := m.covers && m.segments.all Segment.wellFormed

end Sys2Proof
end

