-- ==== Sys2Proof/Decode.lean ====
section
/-! DEFINITION. The decoder of R71 (total on words and on byte lists, rejecting by name, strict on must-be-zero
fields, R77), the encoder and the opcode table of R72 as rows, and the assembly operand orders of R79. -/

namespace Sys2Proof

/-! ## Fields of a word (R61 to R63) -/

def opcodeOf (w : Word) : BitVec 6 := w.extractLsb' 26 6
def rsOf (w : Word) : RegNum := w.extractLsb' 21 5
def rtOf (w : Word) : RegNum := w.extractLsb' 16 5
def rdOf (w : Word) : RegNum := w.extractLsb' 11 5
def saOf (w : Word) : BitVec 5 := w.extractLsb' 6 5
def functOf (w : Word) : BitVec 6 := w.extractLsb' 0 6
def immOf (w : Word) : BitVec 16 := w.extractLsb' 0 16
def indexOf (w : Word) : BitVec 26 := w.extractLsb' 0 26

/-! ## The three layouts (R61, R62, R63) -/

/-- Register format: opcode, rs, rt, rd, sa, funct from bit 31 down (R61). -/
def rType (op : BitVec 6) (rs rt rd : RegNum) (sa : BitVec 5) (funct : BitVec 6) : Word :=
  op ++ rs ++ rt ++ rd ++ sa ++ funct

/-- Immediate format: opcode, rs (base), rt, imm from bit 31 down (R62). -/
def iType (op : BitVec 6) (rs rt : RegNum) (imm : BitVec 16) : Word :=
  op ++ rs ++ rt ++ imm

/-- Jump format: opcode, instr_index from bit 31 down (R63). -/
def jType (op : BitVec 6) (index : BitVec 26) : Word := op ++ index

/-! ## Decoding (R71 to R77) -/

/-- Why a word or a byte list is no instruction. All of them make the step raise `ReservedInstruction` (R76), but
`truncated`, which a fetch of a whole word never meets. -/
inductive DecodeError where
  /-- a dash of the primary opcode map (R73) -/
  | reservedOpcode (op : BitVec 6)
  /-- a dash of the SPECIAL function map (R74) -/
  | reservedFunct (funct : BitVec 6)
  /-- a REGIMM selector other than BLTZ and BGEZ (R75) -/
  | reservedRegimm (rt : RegNum)
  /-- a SPECIAL2 function other than MUL's (R75) -/
  | reservedSpecial2 (funct : BitVec 6)
  /-- a must-be-zero field that is not zero (R77) -/
  | nonZeroField (m : Mnemonic)
  /-- an instruction outside `PROFILE` (R71, R76) -/
  | outsideProfile (m : Mnemonic)
  /-- fewer than four bytes (R60) -/
  | truncated
  deriving DecidableEq, Repr

/-- Strict decoding (R77): the instruction, where its must-be-zero fields are zero. -/
def mustBeZero (fieldsZero : Bool) (i : Instr) : Except DecodeError Instr :=
  if fieldsZero then .ok i else .error (.nonZeroField i.mnemonic)

/-- Opcode 000000, selected by funct (R74). -/
def decodeSpecial (rs rt rd : RegNum) (sa : BitVec 5) (funct : BitVec 6) : Except DecodeError Instr :=
  match funct with
  | 0x00#6 => mustBeZero (rs == 0) (.sll rd rt sa)
  | 0x02#6 => mustBeZero (rs == 0) (.srl rd rt sa)
  | 0x03#6 => mustBeZero (rs == 0) (.sra rd rt sa)
  | 0x04#6 => mustBeZero (sa == 0) (.sllv rd rt rs)
  | 0x06#6 => mustBeZero (sa == 0) (.srlv rd rt rs)
  | 0x07#6 => mustBeZero (sa == 0) (.srav rd rt rs)
  | 0x08#6 => mustBeZero (rt == 0 && rd == 0 && sa == 0) (.jr rs)
  | 0x09#6 => mustBeZero (rt == 0 && sa == 0) (.jalr rd rs)
  | 0x20#6 => mustBeZero (sa == 0) (.add rd rs rt)
  | 0x21#6 => mustBeZero (sa == 0) (.addu rd rs rt)
  | 0x22#6 => mustBeZero (sa == 0) (.sub rd rs rt)
  | 0x24#6 => mustBeZero (sa == 0) (.and rd rs rt)
  | 0x25#6 => mustBeZero (sa == 0) (.or rd rs rt)
  | 0x26#6 => mustBeZero (sa == 0) (.xor rd rs rt)
  | 0x2A#6 => mustBeZero (sa == 0) (.slt rd rs rt)
  | _ => .error (.reservedFunct funct)

/-- Opcode 000001, selected by the rt field (R75). -/
def decodeRegimm (rs rt : RegNum) (imm : BitVec 16) : Except DecodeError Instr :=
  match rt with
  | 0#5 => .ok (.bltz rs imm)
  | 1#5 => .ok (.bgez rs imm)
  | _ => .error (.reservedRegimm rt)

/-- Opcode 011100: MUL alone (R75). -/
def decodeSpecial2 (rs rt rd : RegNum) (sa : BitVec 5) (funct : BitVec 6) : Except DecodeError Instr :=
  match funct with
  | 0x02#6 => mustBeZero (sa == 0) (.mul rd rs rt)
  | _ => .error (.reservedSpecial2 funct)

/-- The other opcodes, each one instruction (R73). -/
def decodePrimary (op : BitVec 6) (rs rt : RegNum) (imm : BitVec 16) (index : BitVec 26) : Except DecodeError Instr :=
  match op with
  | 0x02#6 => .ok (.j index)
  | 0x03#6 => .ok (.jal index)
  | 0x04#6 => .ok (.beq rs rt imm)
  | 0x05#6 => .ok (.bne rs rt imm)
  | 0x06#6 => mustBeZero (rt == 0) (.blez rs imm)
  | 0x07#6 => mustBeZero (rt == 0) (.bgtz rs imm)
  | 0x08#6 => .ok (.addi rt rs imm)
  | 0x09#6 => .ok (.addiu rt rs imm)
  | 0x0C#6 => .ok (.andi rt rs imm)
  | 0x0D#6 => .ok (.ori rt rs imm)
  | 0x0E#6 => .ok (.xori rt rs imm)
  | 0x0F#6 => mustBeZero (rs == 0) (.lui rt imm)
  | 0x20#6 => .ok (.lb rt imm rs)
  | 0x23#6 => .ok (.lw rt imm rs)
  | 0x28#6 => .ok (.sb rt imm rs)
  | 0x2B#6 => .ok (.sw rt imm rs)
  | _ => .error (.reservedOpcode op)

/-- `Decode(word)` for the full instruction set (R71, `PROFILE` = FULL34). -/
def decodeWord (w : Word) : Except DecodeError Instr :=
  match opcodeOf w with
  | 0x00#6 => decodeSpecial (rsOf w) (rtOf w) (rdOf w) (saOf w) (functOf w)
  | 0x01#6 => decodeRegimm (rsOf w) (rtOf w) (immOf w)
  | 0x1C#6 => decodeSpecial2 (rsOf w) (rtOf w) (rdOf w) (saOf w) (functOf w)
  | _ => decodePrimary (opcodeOf w) (rsOf w) (rtOf w) (immOf w) (indexOf w)

/-- `Decode(word)` with its last line: an instruction outside `PROFILE` is reserved (R71, R76). -/
def decodeIn (p : Profile) (w : Word) : Except DecodeError Instr :=
  match decodeWord w with
  | .error e => .error e
  | .ok i => if i.wellFormed p then .ok i else .error (.outsideProfile i.mnemonic)

/-- The word whose four bytes, lowest address first, are given: little-endian (R30, R31). -/
def wordOfBytes (b0 b1 b2 b3 : Byte) : Word := b3 ++ b2 ++ b1 ++ b0

/-- Byte `i` of a word, bits 8i+7 down to 8i (R31). -/
def byteOf (w : Word) (i : Nat) : Byte := w.extractLsb' (8 * i) 8

/-- A word's four bytes, lowest address first (R31). -/
def bytesOf (w : Word) : List Byte := [byteOf w 0, byteOf w 1, byteOf w 2, byteOf w 3]

/-- Decoding a byte list: one instruction and the bytes after it (R60, R31). -/
def decode : List Byte → Except DecodeError (Instr × List Byte)
  | b0 :: b1 :: b2 :: b3 :: rest =>
    match decodeWord (wordOfBytes b0 b1 b2 b3) with
    | .ok i => .ok (i, rest)
    | .error e => .error e
  | _ => .error .truncated

/-- The host's question: what the decoder reads from an instruction whose bits, numbered as the opcode table numbers
them, are `w` (one 32-bit word, laid out little-endian; bits above `nbits` are 0). -/
def decodeTableWord (nbits w : Nat) : Option Instr :=
  match decode (bytesOf (BitVec.ofNat 32 (w % 2 ^ nbits))) with
  | .ok (i, _) => some i
  | .error _ => none

/-! ## Encoding (R72) -/

/-- The word of an instruction: the pattern of its row of R72 with its fields filled in. -/
def encode : Instr → Word
  | .add rd rs rt => rType 0b000000 rs rt rd 0b00000 0b100000
  | .addi rt rs imm => iType 0b001000 rs rt imm
  | .addu rd rs rt => rType 0b000000 rs rt rd 0b00000 0b100001
  | .addiu rt rs imm => iType 0b001001 rs rt imm
  | .sub rd rs rt => rType 0b000000 rs rt rd 0b00000 0b100010
  | .slt rd rs rt => rType 0b000000 rs rt rd 0b00000 0b101010
  | .mul rd rs rt => rType 0b011100 rs rt rd 0b00000 0b000010
  | .and rd rs rt => rType 0b000000 rs rt rd 0b00000 0b100100
  | .andi rt rs imm => iType 0b001100 rs rt imm
  | .lui rt imm => iType 0b001111 0b00000 rt imm
  | .or rd rs rt => rType 0b000000 rs rt rd 0b00000 0b100101
  | .ori rt rs imm => iType 0b001101 rs rt imm
  | .xor rd rs rt => rType 0b000000 rs rt rd 0b00000 0b100110
  | .xori rt rs imm => iType 0b001110 rs rt imm
  | .sllv rd rt rs => rType 0b000000 rs rt rd 0b00000 0b000100
  | .sll rd rt sa => rType 0b000000 0b00000 rt rd sa 0b000000
  | .srav rd rt rs => rType 0b000000 rs rt rd 0b00000 0b000111
  | .sra rd rt sa => rType 0b000000 0b00000 rt rd sa 0b000011
  | .srlv rd rt rs => rType 0b000000 rs rt rd 0b00000 0b000110
  | .srl rd rt sa => rType 0b000000 0b00000 rt rd sa 0b000010
  | .beq rs rt offset => iType 0b000100 rs rt offset
  | .bne rs rt offset => iType 0b000101 rs rt offset
  | .bgez rs offset => iType 0b000001 rs 0b00001 offset
  | .bgtz rs offset => iType 0b000111 rs 0b00000 offset
  | .blez rs offset => iType 0b000110 rs 0b00000 offset
  | .bltz rs offset => iType 0b000001 rs 0b00000 offset
  | .j index => jType 0b000010 index
  | .jal index => jType 0b000011 index
  | .jr rs => rType 0b000000 rs 0b00000 0b00000 0b00000 0b001000
  | .jalr rd rs => rType 0b000000 rs 0b00000 rd 0b00000 0b001001
  | .lb rt offset base => iType 0b100000 base rt offset
  | .lw rt offset base => iType 0b100011 base rt offset
  | .sb rt offset base => iType 0b101000 base rt offset
  | .sw rt offset base => iType 0b101011 base rt offset

/-! ## The opcode table as rows (R72) -/

/-- One row of R72: a word `w` is the instruction iff `w & mask = bits`. -/
structure OpcodeRow where
  mnemonic : Mnemonic
  bits     : Word
  mask     : Word
  deriving DecidableEq, Repr

/-- The row's test of a word (R72). -/
def OpcodeRow.matches (r : OpcodeRow) (w : Word) : Bool := w &&& r.mask == r.bits

def arithmeticRows : List OpcodeRow :=
  [⟨.add, 0x00000020, 0xFC0007FF⟩, ⟨.addi, 0x20000000, 0xFC000000⟩, ⟨.addu, 0x00000021, 0xFC0007FF⟩,
   ⟨.addiu, 0x24000000, 0xFC000000⟩, ⟨.sub, 0x00000022, 0xFC0007FF⟩, ⟨.slt, 0x0000002A, 0xFC0007FF⟩,
   ⟨.mul, 0x70000002, 0xFC0007FF⟩]

def logicRows : List OpcodeRow :=
  [⟨.and, 0x00000024, 0xFC0007FF⟩, ⟨.andi, 0x30000000, 0xFC000000⟩, ⟨.lui, 0x3C000000, 0xFFE00000⟩,
   ⟨.or, 0x00000025, 0xFC0007FF⟩, ⟨.ori, 0x34000000, 0xFC000000⟩, ⟨.xor, 0x00000026, 0xFC0007FF⟩,
   ⟨.xori, 0x38000000, 0xFC000000⟩]

def shiftRows : List OpcodeRow :=
  [⟨.sllv, 0x00000004, 0xFC0007FF⟩, ⟨.sll, 0x00000000, 0xFFE0003F⟩, ⟨.srav, 0x00000007, 0xFC0007FF⟩,
   ⟨.sra, 0x00000003, 0xFFE0003F⟩, ⟨.srlv, 0x00000006, 0xFC0007FF⟩, ⟨.srl, 0x00000002, 0xFFE0003F⟩]

def controlRows : List OpcodeRow :=
  [⟨.beq, 0x10000000, 0xFC000000⟩, ⟨.bne, 0x14000000, 0xFC000000⟩, ⟨.bgez, 0x04010000, 0xFC1F0000⟩,
   ⟨.bgtz, 0x1C000000, 0xFC1F0000⟩, ⟨.blez, 0x18000000, 0xFC1F0000⟩, ⟨.bltz, 0x04000000, 0xFC1F0000⟩,
   ⟨.j, 0x08000000, 0xFC000000⟩, ⟨.jal, 0x0C000000, 0xFC000000⟩, ⟨.jr, 0x00000008, 0xFC1FFFFF⟩,
   ⟨.jalr, 0x00000009, 0xFC1F07FF⟩]

def memoryRows : List OpcodeRow :=
  [⟨.lb, 0x80000000, 0xFC000000⟩, ⟨.lw, 0x8C000000, 0xFC000000⟩, ⟨.sb, 0xA0000000, 0xFC000000⟩,
   ⟨.sw, 0xAC000000, 0xFC000000⟩]

/-- The 34 rows of R72. -/
def opcodeTable : List OpcodeRow := arithmeticRows ++ logicRows ++ shiftRows ++ controlRows ++ memoryRows

/-! ## Assembly (R78 to R81): the operand order and ranges of each format; the lexical syntax is not the source's -/

/-- One operand of an assembly line. -/
inductive Operand where
  | reg (r : RegNum)
  | imm (v : Int)
  /-- `offset(base)` -/
  | mem (offset : Int) (base : RegNum)
  /-- the full 32-bit target of J and JAL (R81) -/
  | target (a : Word)
  deriving DecidableEq, Repr

/-- A signed 16-bit operand: the immediates of ADDI and ADDIU, branch and memory offsets (R79, R81). -/
def signed16 (v : Int) : Option (BitVec 16) := if -32768 ≤ v ∧ v ≤ 32767 then some (BitVec.ofInt 16 v) else none

/-- An unsigned 16-bit operand: the immediates of ANDI, ORI, XORI, LUI (R79). -/
def unsigned16 (v : Int) : Option (BitVec 16) := if 0 ≤ v ∧ v ≤ 65535 then some (BitVec.ofInt 16 v) else none

/-- A shift amount, 0 to 31 (R70). -/
def shift5 (v : Int) : Option (BitVec 5) := if 0 ≤ v ∧ v ≤ 31 then some (BitVec.ofInt 5 v) else none

/-- `instr_index = target[27:2]` (R81). -/
def indexOfTarget (a : Word) : BitVec 26 := a.extractLsb' 2 26

/-- The instruction of an assembly line, operands in the order of R79; `JALR rs` means rd = 31 (R80). -/
def assemble : Mnemonic → List Operand → Option Instr
  | .add, [.reg rd, .reg rs, .reg rt] => some (.add rd rs rt)
  | .addi, [.reg rt, .reg rs, .imm v] => (signed16 v).map (.addi rt rs)
  | .addu, [.reg rd, .reg rs, .reg rt] => some (.addu rd rs rt)
  | .addiu, [.reg rt, .reg rs, .imm v] => (signed16 v).map (.addiu rt rs)
  | .sub, [.reg rd, .reg rs, .reg rt] => some (.sub rd rs rt)
  | .slt, [.reg rd, .reg rs, .reg rt] => some (.slt rd rs rt)
  | .mul, [.reg rd, .reg rs, .reg rt] => some (.mul rd rs rt)
  | .and, [.reg rd, .reg rs, .reg rt] => some (.and rd rs rt)
  | .andi, [.reg rt, .reg rs, .imm v] => (unsigned16 v).map (.andi rt rs)
  | .lui, [.reg rt, .imm v] => (unsigned16 v).map (.lui rt)
  | .or, [.reg rd, .reg rs, .reg rt] => some (.or rd rs rt)
  | .ori, [.reg rt, .reg rs, .imm v] => (unsigned16 v).map (.ori rt rs)
  | .xor, [.reg rd, .reg rs, .reg rt] => some (.xor rd rs rt)
  | .xori, [.reg rt, .reg rs, .imm v] => (unsigned16 v).map (.xori rt rs)
  | .sllv, [.reg rd, .reg rt, .reg rs] => some (.sllv rd rt rs)
  | .sll, [.reg rd, .reg rt, .imm v] => (shift5 v).map (.sll rd rt)
  | .srav, [.reg rd, .reg rt, .reg rs] => some (.srav rd rt rs)
  | .sra, [.reg rd, .reg rt, .imm v] => (shift5 v).map (.sra rd rt)
  | .srlv, [.reg rd, .reg rt, .reg rs] => some (.srlv rd rt rs)
  | .srl, [.reg rd, .reg rt, .imm v] => (shift5 v).map (.srl rd rt)
  | .beq, [.reg rs, .reg rt, .imm v] => (signed16 v).map (.beq rs rt)
  | .bne, [.reg rs, .reg rt, .imm v] => (signed16 v).map (.bne rs rt)
  | .bgez, [.reg rs, .imm v] => (signed16 v).map (.bgez rs)
  | .bgtz, [.reg rs, .imm v] => (signed16 v).map (.bgtz rs)
  | .blez, [.reg rs, .imm v] => (signed16 v).map (.blez rs)
  | .bltz, [.reg rs, .imm v] => (signed16 v).map (.bltz rs)
  | .j, [.target a] => some (.j (indexOfTarget a))
  | .jal, [.target a] => some (.jal (indexOfTarget a))
  | .jr, [.reg rs] => some (.jr rs)
  | .jalr, [.reg rd, .reg rs] => some (.jalr rd rs)
  | .jalr, [.reg rs] => some (.jalr 31 rs)
  | .lb, [.reg rt, .mem o base] => (signed16 o).map (.lb rt · base)
  | .lw, [.reg rt, .mem o base] => (signed16 o).map (.lw rt · base)
  | .sb, [.reg rt, .mem o base] => (signed16 o).map (.sb rt · base)
  | .sw, [.reg rt, .mem o base] => (signed16 o).map (.sw rt · base)
  | _, _ => none

/-- `NOP`, the spec's name for the word 0x0000_0000 (R78, R80). -/
def nop : Instr := .sll 0 0 0

end Sys2Proof
end

