-- ==== Sys2Proof/Machine/Operands.lean ====
section
/-! DEFINITION. Operand forms: immediates, shift amounts, branch and jump targets, effective addresses (R65 to R70,
R162, R163, R190), and the conditions of the six branches (R164 to R169). -/

namespace Sys2Proof.Machine

/-- `sext_32(imm)`: ADDI (through `sext33Imm`), ADDIU, and the offsets of LB, LW, SB, SW (R65). -/
def sextImm (imm : BitVec 16) : Word := imm.signExtend 32

/-- `zext_32(imm)`: ANDI, ORI, XORI (R66). -/
def zextImm (imm : BitVec 16) : Word := imm.setWidth 32

/-- `imm || 0^16`: LUI (R67). -/
def upperImm (imm : BitVec 16) : Word := imm ++ (0 : BitVec 16)

/-- `sext_32(offset || 0^2)` (R68). -/
def branchOffset (offset : BitVec 16) : Word := (offset ++ (0 : BitVec 2)).signExtend 32

/-- The target of a conditional branch at address `a`: `(A + 4) + sext_32(offset || 0^2)` modulo 2^32 (R162). -/
def branchTarget (a : Word) (offset : BitVec 16) : Word := (a + 4) + branchOffset offset

/-- The target of J and JAL at address `a`: `(A + 4)[31:28] || instr_index || 0^2` (R163). -/
def jumpTarget (a : Word) (index : BitVec 26) : Word := (a + 4).extractLsb' 28 4 ++ index ++ (0 : BitVec 2)

/-- The link value of JAL and JALR at address `a`: `A + 8` modulo 2^32 (R171, R173). -/
def linkValue (a : Word) : Word := a + 8

/-- The amount of a variable shift: `x[rs][4:0]`, bits 31..5 ignored (R70, R140). -/
def shiftAmount (x : Word) : BitVec 5 := x.extractLsb' 0 5

/-- `x[base] + sext_32(offset)` modulo 2^32 (R190). -/
def effectiveAddr (base : Word) (offset : BitVec 16) : Word := base + sextImm offset

/-- `addr[1:0] = 0`: the test of LW, SW and the fetch (R17, R33). -/
def wordAligned (addr : Word) : Bool := addr.extractLsb' 0 2 == 0

/-- `x >=s 0` (R166). -/
def geZero (x : Word) : Bool := !x.msb

/-- `x >s 0` (R167). -/
def gtZero (x : Word) : Bool := !x.msb && x != 0

/-- `x <=s 0` (R168). -/
def leZero (x : Word) : Bool := x.msb || x == 0

/-- `x <s 0` (R169). -/
def ltZero (x : Word) : Bool := x.msb

end Sys2Proof.Machine
end

