-- ==== Sys2Proof/Machine/Ops.lean ====
section
/-! DEFINITION. The operations every meaning is written over: registers with the hardwired zero (R11), raising (R214),
advancing and transferring control (R15, R16, R160, R161), and the access primitives `MemRead`, `MemWrite` and
`FetchWord` (R36, R37, R39). -/

namespace Sys2Proof.Machine

/-! ## Registers (R10, R11) -/

/-- `x[r]`: register 0 reads as 0 (R11). -/
def RegFile.read (g : RegFile) (r : RegNum) : Word :=
  if h : r = 0 then 0
  else g[r.toNat - 1]'(by have := r.isLt; have : r.toNat ≠ 0 := fun e => h (BitVec.eq_of_toNat_eq e); omega)

/-- `x[r] <- v`: a write to register 0 is discarded (R11). -/
def RegFile.write (g : RegFile) (r : RegNum) (v : Word) : RegFile :=
  if h : r = 0 then g
  else g.set (r.toNat - 1) v (by have := r.isLt; have : r.toNat ≠ 0 := fun e => h (BitVec.eq_of_toNat_eq e); omega)

/-- `x[r]` in a state. -/
def State.reg (s : State) (r : RegNum) : Word := s.gpr.read r

/-- `x[r] <- v` in a state. -/
def State.setReg (s : State) (r : RegNum) (v : Word) : State := { s with gpr := s.gpr.write r v }

/-! ## Updates of the state -/

/-- What every `raise` does to the state as it was before the step: nothing but `status <- Fault(kind, info)` (R22,
R214). -/
def State.raised (s : State) (c : Cause) : State := { s with status := .fault c }

/-- After an instruction that completes and transfers no control: `pc` takes the pending target, or `pc + 4`, and
`pending` is `none` (R15, R22 steps 4 and 7). -/
def State.advance (s : State) : State :=
  { s with pc := s.pending.getD (s.pc + 4), pending := none }

/-- After a branch or jump outside a delay slot: on to the delay slot, with `t` pending (R16, R160). -/
def State.delayed (s : State) (t : Word) : State := { s with pc := s.pc + 4, pending := some t }

/-- Memory replaced. -/
def State.setMem (s : State) (m : Memory) : State := { s with mem := m }

/-- A device read was made: the next one draws another value (R45). -/
def State.drawn (s : State) : State := { s with draws := s.draws + 1 }

/-- An output event handed to the environment (R37, R45). -/
def State.emit (s : State) (o : DeviceWrite) : State := { s with outputs := s.outputs ++ [o] }

/-! ## Taking an exception, completing, transferring control -/

/-- Taking an exception: the one operation behind `SignalException` and every other `raise` (R213, R214). The spec gives
the hardware no handler, saved pc or cause register to enter; the machine goes to the fault state, with everything else
as it was before the instruction (`s` is that state). There is no return from it (R224). -/
def takeException (c : Cause) (s : State) : Host.Outcome State Fault Refusal := .next (s.raised c)

/-- An instruction that writes one register and goes on (R13, R15). -/
def writeBack (s : State) (rd : RegNum) (v : Word) : Host.Outcome State Fault Refusal := .next (s.setReg rd v).advance

/-- ADD, ADDI, SUB: raise IntegerOverflow on a 33-bit result that does not fit, else write its low 32 bits (R101, R211). -/
def writeUnlessOverflow (s : State) (rd : RegNum) (tmp : BitVec 33) : Host.Outcome State Fault Refusal :=
  if overflows tmp then takeException (.integerOverflow s.pc) s else writeBack s rd (low32 tmp)

/-- A control transfer to `t`: refused in a delay slot by the fault of R161, else the target is pending while the delay
slot runs (R16, R160). -/
def transfer (s : State) (t : Word) : Host.Outcome State Fault Refusal :=
  if s.pending.isSome then takeException (.controlTransferInDelaySlot s.pc) s else .next (s.delayed t)

/-- A control transfer that first writes the link register (R171, R173); in a delay slot nothing is written (R161). -/
def transferLink (s : State) (link : RegNum) (t : Word) : Host.Outcome State Fault Refusal :=
  if s.pending.isSome then takeException (.controlTransferInDelaySlot s.pc) s
  else .next ((s.setReg link (linkValue s.pc)).delayed t)

/-- A conditional branch: pending is the target, or the address after the delay slot (R16, R160, R162). -/
def branch (s : State) (cond : Bool) (offset : BitVec 16) : Host.Outcome State Fault Refusal :=
  transfer s (if cond then branchTarget s.pc offset else s.pc + 8)

/-! ## The access primitives (R36, R37, R39) -/

/-- Every one of `n` physical addresses from `pa` satisfies `p`. -/
def allBytes (n pa : Nat) (p : Nat → Bool) : Bool := (List.range n).all fun i => p (pa + i)

/-- The checks of `MemRead(vaddr, n)` (R36). -/
def loadCheck (c : Config) (va : Word) (n : Nat) : Option Cause :=
  if allBytes n (translate c va .data .load).1 (regionOf c · != .nothing) then none else some (.unmapped .load va)

/-- `MemRead(vaddr, 1)` and the state after it: a device read draws a value and counts it (R36, R45). -/
def memReadByte (s : State) (va : Word) : Except Cause (Byte × State) :=
  match loadCheck s.cfg va 1 with
  | some c => .error c
  | none =>
    if regionOf s.cfg (translate s.cfg va .data .load).1 = .device then
      .ok ((Config.deviceDraw s.draws).setWidth 8, s.drawn)
    else .ok (s.mem.read (translate s.cfg va .data .load).1, s)

/-- `MemRead(vaddr, 4)`, the address checked to be aligned, and the state after it (R36, R45). -/
def memReadWord (s : State) (va : Word) : Except Cause (Word × State) :=
  match loadCheck s.cfg va 4 with
  | some c => .error c
  | none =>
    if regionOf s.cfg (translate s.cfg va .data .load).1 = .device then .ok (Config.deviceDraw s.draws, s.drawn)
    else .ok (s.mem.readWord (translate s.cfg va .data .load).1, s)

/-- The checks of `MemWrite(vaddr, n, v)`, in their order, all before any byte is written (R37, R222). -/
def storeCheck (c : Config) (va : Word) (n : Nat) : Option Cause :=
  if allBytes n (translate c va .data .store).1 (regionOf c · != .nothing) then
    if allBytes n (translate c va .data .store).1 (!inText c ·) then none else some (.storeToText va)
  else some (.unmapped .store va)

/-- `MemWrite(vaddr, 1, v)` (R37). -/
def memWriteByte (s : State) (va : Word) (v : Byte) : Except Cause State :=
  match storeCheck s.cfg va 1 with
  | some c => .error c
  | none =>
    if regionOf s.cfg (translate s.cfg va .data .store).1 = .device then
      .ok (s.emit (.byte (translate s.cfg va .data .store).1 v))
    else .ok (s.setMem (s.mem.write (translate s.cfg va .data .store).1 v))

/-- `MemWrite(vaddr, 4, v)`, the address checked to be aligned (R37). -/
def memWriteWord (s : State) (va : Word) (v : Word) : Except Cause State :=
  match storeCheck s.cfg va 4 with
  | some c => .error c
  | none =>
    if regionOf s.cfg (translate s.cfg va .data .store).1 = .device then
      .ok (s.emit (.word (translate s.cfg va .data .store).1 v))
    else .ok (s.setMem (s.mem.writeWord (translate s.cfg va .data .store).1 v))

/-- The end of a load: raise, or write the register and go on (R195 steps 4 and 6). -/
def finishLoad (s : State) (rt : RegNum) : Except Cause (Word × State) → Host.Outcome State Fault Refusal
  | .error c => takeException c s
  | .ok (v, t) => writeBack t rt v

/-- The end of a store: raise, or go on (R195 step 4). -/
def finishStore (s : State) : Except Cause State → Host.Outcome State Fault Refusal
  | .error c => takeException c s
  | .ok t => .next t.advance

/-- Steps 1 and 2 of the step: the alignment of `pc` and `FetchWord(pc)` (R17, R22, R39). -/
def fetchWord (s : State) : Except Cause Word :=
  if wordAligned s.pc then
    if allBytes 4 (translate s.cfg s.pc .instruction .fetch).1 (regionOf s.cfg · == .ram) then
      .ok (s.mem.readWord (translate s.cfg s.pc .instruction .fetch).1)
    else .error (.unmapped .fetch s.pc)
  else .error (.addressError .fetch s.pc)

/-- Steps 1 to 3 of the step: fetch and decode under `PROFILE` (R22, R71, R76). -/
def fetchInstr (s : State) : Except Cause Instr :=
  match fetchWord s with
  | .error c => .error c
  | .ok w =>
    match decodeIn s.cfg.profile w with
    | .ok i => .ok i
    | .error _ => .error (.reservedInstruction w)

/-- The state with the word `w` stored where the next fetch reads (R31, R39, R41). -/
def State.placeWord (s : State) (w : Word) : State := s.setMem (s.mem.writeWord (physAddr s.cfg s.pc) w)

end Sys2Proof.Machine
end

