-- ==== Sys2Proof/Machine/Arithmetic.lean ====
section
/-! DEFINITION. The seven arithmetic instructions (40_arithmetic.md). -/

namespace Sys2Proof.Machine

/-- ADD rd, rs, rt (R103). -/
def execAdd (rd rs rt : RegNum) (s : State) : Host.Outcome State Fault Refusal :=
  writeUnlessOverflow s rd (sext33 (s.reg rs) + sext33 (s.reg rt))

/-- ADDI rt, rs, imm (R104). -/
def execAddi (rt rs : RegNum) (imm : BitVec 16) (s : State) : Host.Outcome State Fault Refusal :=
  writeUnlessOverflow s rt (sext33 (s.reg rs) + sext33Imm imm)

/-- ADDU rd, rs, rt (R105). -/
def execAddu (rd rs rt : RegNum) (s : State) : Host.Outcome State Fault Refusal :=
  writeBack s rd (s.reg rs + s.reg rt)

/-- ADDIU rt, rs, imm (R106). -/
def execAddiu (rt rs : RegNum) (imm : BitVec 16) (s : State) : Host.Outcome State Fault Refusal :=
  writeBack s rt (s.reg rs + sextImm imm)

/-- SUB rd, rs, rt: `x[rs] - x[rt]` (R107). -/
def execSub (rd rs rt : RegNum) (s : State) : Host.Outcome State Fault Refusal :=
  writeUnlessOverflow s rd (sext33 (s.reg rs) - sext33 (s.reg rt))

/-- SLT rd, rs, rt: signed comparison (R102, R108). -/
def execSlt (rd rs rt : RegNum) (s : State) : Host.Outcome State Fault Refusal :=
  writeBack s rd (if (s.reg rs).slt (s.reg rt) then 1 else 0)

/-- MUL rd, rs, rt: the low 32 bits of the 64-bit signed product (R102, R109). -/
def execMul (rd rs rt : RegNum) (s : State) : Host.Outcome State Fault Refusal :=
  writeBack s rd (((s.reg rs).signExtend 64 * (s.reg rt).signExtend 64).setWidth 32)

end Sys2Proof.Machine
end

