-- ==== Sys2Proof/Machine/Branch.lean ====
section
/-! DEFINITION. The ten branch and jump instructions (43_branch_jump.md), each with one delay slot (R160). -/

namespace Sys2Proof.Machine

/-- BEQ rs, rt, offset (R164). -/
def execBeq (rs rt : RegNum) (offset : BitVec 16) (s : State) : Host.Outcome State Fault Refusal :=
  branch s (s.reg rs == s.reg rt) offset

/-- BNE rs, rt, offset (R165). -/
def execBne (rs rt : RegNum) (offset : BitVec 16) (s : State) : Host.Outcome State Fault Refusal :=
  branch s (s.reg rs != s.reg rt) offset

/-- BGEZ rs, offset (R166). -/
def execBgez (rs : RegNum) (offset : BitVec 16) (s : State) : Host.Outcome State Fault Refusal :=
  branch s (geZero (s.reg rs)) offset

/-- BGTZ rs, offset (R167). -/
def execBgtz (rs : RegNum) (offset : BitVec 16) (s : State) : Host.Outcome State Fault Refusal :=
  branch s (gtZero (s.reg rs)) offset

/-- BLEZ rs, offset (R168). -/
def execBlez (rs : RegNum) (offset : BitVec 16) (s : State) : Host.Outcome State Fault Refusal :=
  branch s (leZero (s.reg rs)) offset

/-- BLTZ rs, offset (R169). -/
def execBltz (rs : RegNum) (offset : BitVec 16) (s : State) : Host.Outcome State Fault Refusal :=
  branch s (ltZero (s.reg rs)) offset

/-- J target (R170). -/
def execJ (index : BitVec 26) (s : State) : Host.Outcome State Fault Refusal :=
  transfer s (jumpTarget s.pc index)

/-- JAL target: links r31 (R171). -/
def execJal (index : BitVec 26) (s : State) : Host.Outcome State Fault Refusal :=
  transferLink s 31 (jumpTarget s.pc index)

/-- JR rs: the target is copied unchecked (R172, R175). -/
def execJr (rs : RegNum) (s : State) : Host.Outcome State Fault Refusal :=
  transfer s (s.reg rs)

/-- JALR rd, rs: the target is read before the link is written (R173, D18). -/
def execJalr (rd rs : RegNum) (s : State) : Host.Outcome State Fault Refusal :=
  transferLink s rd (s.reg rs)

end Sys2Proof.Machine
end

