-- ==== Sys2Proof/Machine/LoadStore.lean ====
section
/-! DEFINITION. The four load and store instructions (44_load_store.md), their checks in the order of R195. -/

namespace Sys2Proof.Machine

/-- LB rt, offset(base): the byte sign-extended (R191). -/
def execLb (rt : RegNum) (offset : BitVec 16) (base : RegNum) (s : State) : Host.Outcome State Fault Refusal :=
  finishLoad s rt ((memReadByte s (effectiveAddr (s.reg base) offset)).map fun (b, t) => (b.signExtend 32, t))

/-- LW rt, offset(base): the alignment test before the access (R192). -/
def execLw (rt : RegNum) (offset : BitVec 16) (base : RegNum) (s : State) : Host.Outcome State Fault Refusal :=
  if wordAligned (effectiveAddr (s.reg base) offset) then
    finishLoad s rt (memReadWord s (effectiveAddr (s.reg base) offset))
  else takeException (.addressError .load (effectiveAddr (s.reg base) offset)) s

/-- SB rt, offset(base): the lowest byte of `x[rt]` (R193). -/
def execSb (rt : RegNum) (offset : BitVec 16) (base : RegNum) (s : State) : Host.Outcome State Fault Refusal :=
  finishStore s (memWriteByte s (effectiveAddr (s.reg base) offset) (byteOf (s.reg rt) 0))

/-- SW rt, offset(base): the alignment test before the access (R194). -/
def execSw (rt : RegNum) (offset : BitVec 16) (base : RegNum) (s : State) : Host.Outcome State Fault Refusal :=
  if wordAligned (effectiveAddr (s.reg base) offset) then
    finishStore s (memWriteWord s (effectiveAddr (s.reg base) offset) (s.reg rt))
  else takeException (.addressError .store (effectiveAddr (s.reg base) offset)) s

end Sys2Proof.Machine
end

