-- ==== Sys2Proof/Machine/Logic.lean ====
section
/-! DEFINITION. The seven logic instructions (41_logic.md). -/

namespace Sys2Proof.Machine

/-- AND rd, rs, rt (R121). -/
def execAnd (rd rs rt : RegNum) (s : State) : Host.Outcome State Fault Refusal :=
  writeBack s rd (s.reg rs &&& s.reg rt)

/-- ANDI rt, rs, imm: the immediate zero-extended (R122). -/
def execAndi (rt rs : RegNum) (imm : BitVec 16) (s : State) : Host.Outcome State Fault Refusal :=
  writeBack s rt (s.reg rs &&& zextImm imm)

/-- LUI rt, imm (R123). -/
def execLui (rt : RegNum) (imm : BitVec 16) (s : State) : Host.Outcome State Fault Refusal :=
  writeBack s rt (upperImm imm)

/-- OR rd, rs, rt (R124). -/
def execOr (rd rs rt : RegNum) (s : State) : Host.Outcome State Fault Refusal :=
  writeBack s rd (s.reg rs ||| s.reg rt)

/-- ORI rt, rs, imm: the immediate zero-extended (R125). -/
def execOri (rt rs : RegNum) (imm : BitVec 16) (s : State) : Host.Outcome State Fault Refusal :=
  writeBack s rt (s.reg rs ||| zextImm imm)

/-- XOR rd, rs, rt (R126). -/
def execXor (rd rs rt : RegNum) (s : State) : Host.Outcome State Fault Refusal :=
  writeBack s rd (s.reg rs ^^^ s.reg rt)

/-- XORI rt, rs, imm: the immediate zero-extended (R127). -/
def execXori (rt rs : RegNum) (imm : BitVec 16) (s : State) : Host.Outcome State Fault Refusal :=
  writeBack s rt (s.reg rs ^^^ zextImm imm)

end Sys2Proof.Machine
end

