-- ==== Sys2Proof/Machine/Shift.lean ====
section
/-! DEFINITION. The six shift instructions (42_shift.md): the value is `x[rt]`, the amount 0 to 31 (R140). -/

namespace Sys2Proof.Machine

/-- SLLV rd, rt, rs (R141). -/
def execSllv (rd rt rs : RegNum) (s : State) : Host.Outcome State Fault Refusal :=
  writeBack s rd (s.reg rt <<< (shiftAmount (s.reg rs)).toNat)

/-- SLL rd, rt, sa (R142). -/
def execSll (rd rt : RegNum) (sa : BitVec 5) (s : State) : Host.Outcome State Fault Refusal :=
  writeBack s rd (s.reg rt <<< sa.toNat)

/-- SRAV rd, rt, rs (R143). -/
def execSrav (rd rt rs : RegNum) (s : State) : Host.Outcome State Fault Refusal :=
  writeBack s rd ((s.reg rt).sshiftRight (shiftAmount (s.reg rs)).toNat)

/-- SRA rd, rt, sa (R144). -/
def execSra (rd rt : RegNum) (sa : BitVec 5) (s : State) : Host.Outcome State Fault Refusal :=
  writeBack s rd ((s.reg rt).sshiftRight sa.toNat)

/-- SRLV rd, rt, rs (R145). -/
def execSrlv (rd rt rs : RegNum) (s : State) : Host.Outcome State Fault Refusal :=
  writeBack s rd (s.reg rt >>> (shiftAmount (s.reg rs)).toNat)

/-- SRL rd, rt, sa (R146). -/
def execSrl (rd rt : RegNum) (sa : BitVec 5) (s : State) : Host.Outcome State Fault Refusal :=
  writeBack s rd (s.reg rt >>> sa.toNat)

end Sys2Proof.Machine
end

