-- ==== Sys2Proof/Machine/Dispatch.lean ====
section
/-! DEFINITION. One arm per instruction, each one direct call of its meaning. -/

namespace Sys2Proof.Machine

def exec (i : Instr) (s : State) : Host.Outcome State Fault Refusal :=
  match i with
  | .add rd rs rt => Sys2Proof.Machine.execAdd rd rs rt s
  | .addi rt rs imm => Sys2Proof.Machine.execAddi rt rs imm s
  | .addu rd rs rt => Sys2Proof.Machine.execAddu rd rs rt s
  | .addiu rt rs imm => Sys2Proof.Machine.execAddiu rt rs imm s
  | .sub rd rs rt => Sys2Proof.Machine.execSub rd rs rt s
  | .slt rd rs rt => Sys2Proof.Machine.execSlt rd rs rt s
  | .mul rd rs rt => Sys2Proof.Machine.execMul rd rs rt s
  | .and rd rs rt => Sys2Proof.Machine.execAnd rd rs rt s
  | .andi rt rs imm => Sys2Proof.Machine.execAndi rt rs imm s
  | .lui rt imm => Sys2Proof.Machine.execLui rt imm s
  | .or rd rs rt => Sys2Proof.Machine.execOr rd rs rt s
  | .ori rt rs imm => Sys2Proof.Machine.execOri rt rs imm s
  | .xor rd rs rt => Sys2Proof.Machine.execXor rd rs rt s
  | .xori rt rs imm => Sys2Proof.Machine.execXori rt rs imm s
  | .sllv rd rt rs => Sys2Proof.Machine.execSllv rd rt rs s
  | .sll rd rt sa => Sys2Proof.Machine.execSll rd rt sa s
  | .srav rd rt rs => Sys2Proof.Machine.execSrav rd rt rs s
  | .sra rd rt sa => Sys2Proof.Machine.execSra rd rt sa s
  | .srlv rd rt rs => Sys2Proof.Machine.execSrlv rd rt rs s
  | .srl rd rt sa => Sys2Proof.Machine.execSrl rd rt sa s
  | .beq rs rt offset => Sys2Proof.Machine.execBeq rs rt offset s
  | .bne rs rt offset => Sys2Proof.Machine.execBne rs rt offset s
  | .bgez rs offset => Sys2Proof.Machine.execBgez rs offset s
  | .bgtz rs offset => Sys2Proof.Machine.execBgtz rs offset s
  | .blez rs offset => Sys2Proof.Machine.execBlez rs offset s
  | .bltz rs offset => Sys2Proof.Machine.execBltz rs offset s
  | .j index => Sys2Proof.Machine.execJ index s
  | .jal index => Sys2Proof.Machine.execJal index s
  | .jr rs => Sys2Proof.Machine.execJr rs s
  | .jalr rd rs => Sys2Proof.Machine.execJalr rd rs s
  | .lb rt offset base => Sys2Proof.Machine.execLb rt offset base s
  | .lw rt offset base => Sys2Proof.Machine.execLw rt offset base s
  | .sb rt offset base => Sys2Proof.Machine.execSb rt offset base s
  | .sw rt offset base => Sys2Proof.Machine.execSw rt offset base s

end Sys2Proof.Machine
end

