-- ==== Sys2Proof/Machine/Step.lean ====
section
/-! DEFINITION. One step of the machine (R22), and the placing of an instruction where the next step fetches. -/

namespace Sys2Proof.Machine

/-- One step (R22): in a fault state there is none; else fetch and decode (steps 1 to 3), then the instruction, whose
meaning does steps 4 to 7. -/
def step (s : State) : Host.Outcome State Fault Refusal :=
  match s.status with
  | .fault c => .fault (.stopped c)
  | .running =>
    match fetchInstr s with
    | .error c => takeException c s
    | .ok i => exec i s

/-- `s` with the instruction word whose bits are `w` stored where `step` fetches its next instruction (assumption 15). -/
def State.withFetchWord (s : State) (nbits w : Nat) : State := s.placeWord (BitVec.ofNat 32 (w % 2 ^ nbits))

end Sys2Proof.Machine
end

