-- ==== Sys2Proof/Machine/Launch.lean ====
section
/-! DEFINITION. Placing a program image for a launch (R243, R49): what stands for the loader outside the machine. -/

namespace Sys2Proof.Machine

/-- Words placed one after another from a physical address (R31, R243). -/
def placeWords : Memory → Nat → List Word → Memory
  | m, _, [] => m
  | m, pa, w :: ws => placeWords (m.writeWord pa w) (pa + 4) ws

/-- The launch with program text placed by physical address, and `TEXT` grown by its bytes, the default of R49. -/
def Launch.withProgram (l : Launch) (pa : Nat) (ws : List Word) : Launch :=
  { l with
    image := placeWords l.image pa ws
    cfg := { l.cfg with text := ⟨pa, 4 * ws.length⟩ :: l.cfg.text } }

/-- A legal launch: a legal segment map (R41), an aligned `RESET_PC` (R240), a canonical image (R243). -/
def Launch.wellFormed (l : Launch) : Bool := l.cfg.segmap.wellFormed && wordAligned l.resetPc && l.image.wf

end Sys2Proof.Machine
end

