-- ==== Sys2Proof/Safety.lean ====
section
/-! DEFINITION. What counts as a safe run (R214, R244), and the words the claims are written in: what a step that
completes changes, and what it leaves. -/

namespace Sys2Proof.Machine

/-! ## Runs (R244) -/

/-- A run has ended normally: `status = Running`, `pc = END_PC`, `pending = none` (R244). -/
def State.ended (s : State) : Bool := s.status == .running && s.cfg.endPc == some s.pc && s.pending == none

/-- What a run comes to. -/
inductive RunResult where
  /-- it reached `END_PC` (R244) -/
  | ended (s : State)
  /-- it raised: a failed run (R214) -/
  | faulted (s : State) (c : Cause)
  /-- neither within the given number of steps -/
  | unfinished (s : State)
  deriving DecidableEq, Repr

/-- A run from `s`, at most `n` steps, stopping before the instruction at `END_PC` is fetched (R244). -/
def runToEnd : Nat → State → RunResult
  | n, s =>
    match s.status with
    | .fault c => .faulted s c
    | .running =>
      if s.ended then .ended s
      else
        match n with
        | 0 => .unfinished s
        | n + 1 =>
          match step s with
          | .next t => runToEnd n t
          | _ => .unfinished s

/-- A safe run ends normally (R214: a run that ends in a fault is a failed run). -/
def RunResult.safe : RunResult → Bool
  | .ended _ => true
  | _ => false

/-! ## What a step changes -/

/-- Control goes on as R15 says after an instruction that transfers no control: to the pending target in a delay slot,
else to `pc + 4`; and nothing is pending. -/
def GoesOn (s t : State) : Prop :=
  (∀ a, s.pending = some a → t.pc = a) ∧ (s.pending = none → t.pc = s.pc + 4) ∧ t.pending = none

/-- Control goes to the delay slot with target `a` pending (R16, R160). -/
def Delays (s t : State) (a : Word) : Prop := t.pc = s.pc + 4 ∧ t.pending = some a

/-- Every byte of memory reads as before. -/
def SameMemory (s t : State) : Prop := ∀ a, t.mem.read a = s.mem.read a

/-- Every byte of memory outside the `n` bytes from `pa` reads as before. -/
def SameMemoryBut (pa n : Nat) (s t : State) : Prop := ∀ a, (a < pa ∨ pa + n ≤ a) → t.mem.read a = s.mem.read a

/-- Every register but `rd` reads as before. -/
def SameRegsBut (rd : RegNum) (s t : State) : Prop := ∀ r, r ≠ rd → t.reg r = s.reg r

/-- Every register reads as before. -/
def SameRegs (s t : State) : Prop := ∀ r, t.reg r = s.reg r

/-- Configuration, status, device reads made and output events are as before. -/
def SameRest (s t : State) : Prop :=
  t.cfg = s.cfg ∧ t.status = s.status ∧ t.draws = s.draws ∧ t.outputs = s.outputs

/-- `x[rd] <- v`, a write to register 0 being discarded (R11), and every other register as before. -/
def RegWritten (s t : State) (rd : RegNum) (v : Word) : Prop :=
  (rd ≠ 0 → t.reg rd = v) ∧ t.reg 0 = 0 ∧ SameRegsBut rd s t

/-- The instruction writes `v` to `x[rd]`, goes on, and changes nothing else. -/
def WritesOnly (s t : State) (rd : RegNum) (v : Word) : Prop :=
  RegWritten s t rd v ∧ GoesOn s t ∧ SameMemory s t ∧ SameRest s t

/-- The instruction leaves `a` pending, writes no register, and changes nothing else. -/
def BranchesOnly (s t : State) (a : Word) : Prop :=
  SameRegs s t ∧ Delays s t a ∧ SameMemory s t ∧ SameRest s t

/-- Nothing but `status` differs, and it is the fault `c` (R214). -/
def RaisesOnly (s t : State) (c : Cause) : Prop := t = { s with status := .fault c }

end Sys2Proof.Machine

namespace Sys2Proof

/-! ## Which registers an instruction names (R13) -/

/-- The registers an instruction reads: the table of R13. -/
def Instr.reads : Instr → List RegNum
  | .add _ rs rt | .addu _ rs rt | .sub _ rs rt | .slt _ rs rt | .mul _ rs rt => [rs, rt]
  | .and _ rs rt | .or _ rs rt | .xor _ rs rt => [rs, rt]
  | .addi _ rs _ | .addiu _ rs _ | .andi _ rs _ | .ori _ rs _ | .xori _ rs _ => [rs]
  | .lui _ _ => []
  | .sllv _ rt rs | .srav _ rt rs | .srlv _ rt rs => [rs, rt]
  | .sll _ rt _ | .sra _ rt _ | .srl _ rt _ => [rt]
  | .beq rs rt _ | .bne rs rt _ => [rs, rt]
  | .bgez rs _ | .bgtz rs _ | .blez rs _ | .bltz rs _ => [rs]
  | .j _ | .jal _ => []
  | .jr rs | .jalr _ rs => [rs]
  | .lb _ _ base | .lw _ _ base => [base]
  | .sb rt _ base | .sw rt _ base => [base, rt]

/-- The register an instruction writes, if any: the table of R13. -/
def Instr.writes : Instr → Option RegNum
  | .add rd _ _ | .addu rd _ _ | .sub rd _ _ | .slt rd _ _ | .mul rd _ _ => some rd
  | .and rd _ _ | .or rd _ _ | .xor rd _ _ => some rd
  | .addi rt _ _ | .addiu rt _ _ | .andi rt _ _ | .ori rt _ _ | .xori rt _ _ => some rt
  | .lui rt _ => some rt
  | .sllv rd _ _ | .srav rd _ _ | .srlv rd _ _ | .sll rd _ _ | .sra rd _ _ | .srl rd _ _ => some rd
  | .beq _ _ _ | .bne _ _ _ | .bgez _ _ | .bgtz _ _ | .blez _ _ | .bltz _ _ => none
  | .j _ | .jr _ => none
  | .jal _ => some 31
  | .jalr rd _ => some rd
  | .lb rt _ _ | .lw rt _ _ => some rt
  | .sb _ _ _ | .sw _ _ _ => none

/-! ## Assembly lines (R79): the operand lists of a mnemonic, all of them, and the instruction each gives -/

/-- Three registers, `f` of them in the order they are written. -/
def ThreeRegLine (m : Mnemonic) (f : RegNum → RegNum → RegNum → Instr) : Prop :=
  ∀ ops i, assemble m ops = some i ↔ ∃ a b c, ops = [.reg a, .reg b, .reg c] ∧ i = f a b c

/-- Two registers and a number, which is the `value` of the field it is put in. -/
def TwoRegImmLine {n : Nat} (m : Mnemonic) (value : BitVec n → Int) (f : RegNum → RegNum → BitVec n → Instr) : Prop :=
  ∀ ops i, assemble m ops = some i ↔ ∃ a b x, ops = [.reg a, .reg b, .imm (value x)] ∧ i = f a b x

/-- One register and a number, which is the `value` of the field it is put in. -/
def OneRegImmLine (m : Mnemonic) (value : BitVec 16 → Int) (f : RegNum → BitVec 16 → Instr) : Prop :=
  ∀ ops i, assemble m ops = some i ↔ ∃ a x, ops = [.reg a, .imm (value x)] ∧ i = f a x

/-- A register and `offset(base)`, the offset signed. -/
def MemLine (m : Mnemonic) (f : RegNum → BitVec 16 → RegNum → Instr) : Prop :=
  ∀ ops i, assemble m ops = some i ↔ ∃ a x base, ops = [.reg a, .mem x.toInt base] ∧ i = f a x base

/-- A full target, whose bits 27 to 2 are the index (R81). -/
def TargetLine (m : Mnemonic) (f : BitVec 26 → Instr) : Prop :=
  ∀ ops i, assemble m ops = some i ↔
    ∃ (a : Word) (x : BitVec 26), ops = [.target a] ∧ x.toNat = a.toNat / 4 % 2 ^ 26 ∧ i = f x

end Sys2Proof
end

