-- ==== Sys2Proof/Certificates/Slice0/Obligations.lean ====
section
/-! DEFINITION. The statements for the provers: the rules of the spec about what an instruction or the machine does. The
words they are written in (`WritesOnly`, `BranchesOnly`, `RaisesOnly`, `GoesOn` and so on) are in Safety.lean. -/

open Sys2Proof Sys2Proof.Machine

/-! ## Encoding -/

/-- Words the spec writes out from its diagrams and examples (95_test_vectors.md sections 1 and 2) decode to the
instructions it says. -/
def Obligations.SpecWordsDecode : Prop :=
  decodeWord 0x00221820 = .ok (.add 3 1 2) ∧ decodeWord 0x2022FFFB = .ok (.addi 2 1 0xFFFB) ∧
  decodeWord 0x00221821 = .ok (.addu 3 1 2) ∧ decodeWord 0x70221802 = .ok (.mul 3 1 2) ∧
  decodeWord 0x00221826 = .ok (.xor 3 1 2) ∧ decodeWord 0x3C028001 = .ok (.lui 2 0x8001) ∧
  decodeWord 0x00221804 = .ok (.sllv 3 2 1) ∧ decodeWord 0x00021903 = .ok (.sra 3 2 4) ∧
  decodeWord 0x18200010 = .ok (.blez 1 0x10) ∧ decodeWord 0x0C000040 = .ok (.jal 0x40) ∧
  decodeWord 0x0020F809 = .ok (.jalr 31 1) ∧ decodeWord 0x8022FFFF = .ok (.lb 2 0xFFFF 1) ∧
  decodeWord 0xAC220004 = .ok (.sw 2 4 1)

/-- Decoding the encoder's word gives the instruction back, with every operand at every value (R71, R72); so does decoding
its bytes, byte 0 least significant (R31), whatever bytes follow. -/
def Obligations.DecodeOfEncode : Prop :=
  ∀ (i : Instr) (rest : List Byte), decodeWord (encode i) = .ok i ∧ decode (bytesOf (encode i) ++ rest) = .ok (i, rest)

/-- No bit of a decoded word is dropped: the word is the one the encoder writes (R71, R72, R77). -/
def Obligations.EncodeOfDecode : Prop := ∀ (w : Word) (i : Instr), decodeWord w = .ok i → encode i = w

/-- The decoding procedure and the opcode table are one (R71): a word decodes to the one row it matches, no word matches
two rows, a word that matches none is reserved, and an instruction outside `PROFILE` is reserved. -/
def Obligations.DecoderAgreesWithTable : Prop :=
  ∀ w : Word,
    (∀ i, decodeWord w = .ok i → ∃ r ∈ opcodeTable, r.mnemonic = i.mnemonic ∧ w &&& r.mask = r.bits) ∧
    (∀ r ∈ opcodeTable, w &&& r.mask = r.bits → ∃ i, decodeWord w = .ok i ∧ i.mnemonic = r.mnemonic) ∧
    (∀ r ∈ opcodeTable, ∀ r' ∈ opcodeTable, w &&& r.mask = r.bits → w &&& r'.mask = r'.bits → r = r') ∧
    ((∀ r ∈ opcodeTable, w &&& r.mask ≠ r.bits) → ∃ e, decodeWord w = .error e) ∧
    (∀ p i, decodeIn p w = .ok i ↔ decodeWord w = .ok i ∧ i.mnemonic ∈ p.mnemonics)

/-- Must-be-zero fields are checked (R77): a word with a non-zero value there is reserved. -/
def Obligations.MustBeZeroFieldsAreChecked : Prop :=
  ∀ (rs rt rd : RegNum) (sa : BitVec 5) (imm : BitVec 16),
    (sa ≠ 0 →
      (∀ f ∈ [0x20, 0x21, 0x22, 0x24, 0x25, 0x26, 0x2A, 0x04, 0x06, 0x07],
        ∃ e, decodeWord (rType 0 rs rt rd sa (BitVec.ofNat 6 f)) = .error e) ∧
      (∃ e, decodeWord (rType 0b011100 rs rt rd sa 0b000010) = .error e)) ∧
    (rs ≠ 0 →
      (∀ f ∈ [0x00, 0x02, 0x03], ∃ e, decodeWord (rType 0 rs rt rd sa (BitVec.ofNat 6 f)) = .error e) ∧
      (∃ e, decodeWord (iType 0b001111 rs rt imm) = .error e)) ∧
    (rt ≠ 0 →
      (∃ e, decodeWord (iType 0b000110 rs rt imm) = .error e) ∧ (∃ e, decodeWord (iType 0b000111 rs rt imm) = .error e)) ∧
    (¬ (rt = 0 ∧ rd = 0 ∧ sa = 0) → ∃ e, decodeWord (rType 0 rs rt rd sa 0b001000) = .error e) ∧
    (¬ (rt = 0 ∧ sa = 0) → ∃ e, decodeWord (rType 0 rs rt rd sa 0b001001) = .error e)

/-- The union of C1, of all C2 choices and of C3 is exactly the 34 instructions of FULL34 (R5). -/
def Obligations.ProfilesCoverTheFullSet : Prop :=
  ∀ i : Instr, i.wellFormed .full34 = true ∧
    (i.wellFormed .c1 = true ∨ (∃ a s b, i.wellFormed (.c2 a s b) = true) ∨ i.wellFormed .c3 = true)

/-- The assembly formats of R79, R80 and R81, whole: for each mnemonic, which operand lists are a line of it, in which
order, with which immediates, and which instruction each gives; no other operand list is one. Immediates are signed in
ADDI, ADDIU, branches and memory offsets, unsigned in ANDI, ORI, XORI, and shift amounts go from 0 to 31 (R70); J and JAL
take `target[27:2]`; `JALR rs` means rd = 31; NOP is the word 0. That LUI's immediate is unsigned and that the other bits of
a target are not checked is the model's choice (assumption 26). -/
def Obligations.AssemblyFormats : Prop :=
  (ThreeRegLine .add (fun rd rs rt => .add rd rs rt) ∧ ThreeRegLine .addu (fun rd rs rt => .addu rd rs rt) ∧
    ThreeRegLine .sub (fun rd rs rt => .sub rd rs rt) ∧ ThreeRegLine .slt (fun rd rs rt => .slt rd rs rt) ∧
    ThreeRegLine .mul (fun rd rs rt => .mul rd rs rt) ∧ ThreeRegLine .and (fun rd rs rt => .and rd rs rt) ∧
    ThreeRegLine .or (fun rd rs rt => .or rd rs rt) ∧ ThreeRegLine .xor (fun rd rs rt => .xor rd rs rt) ∧
    ThreeRegLine .sllv (fun rd rt rs => .sllv rd rt rs) ∧ ThreeRegLine .srav (fun rd rt rs => .srav rd rt rs) ∧
    ThreeRegLine .srlv (fun rd rt rs => .srlv rd rt rs)) ∧
  (TwoRegImmLine .addi BitVec.toInt (fun rt rs imm => .addi rt rs imm) ∧
    TwoRegImmLine .addiu BitVec.toInt (fun rt rs imm => .addiu rt rs imm) ∧
    TwoRegImmLine .andi (fun x => x.toNat) (fun rt rs (imm : BitVec 16) => .andi rt rs imm) ∧
    TwoRegImmLine .ori (fun x => x.toNat) (fun rt rs (imm : BitVec 16) => .ori rt rs imm) ∧
    TwoRegImmLine .xori (fun x => x.toNat) (fun rt rs (imm : BitVec 16) => .xori rt rs imm) ∧
    TwoRegImmLine .sll (fun x => x.toNat) (fun rd rt (sa : BitVec 5) => .sll rd rt sa) ∧
    TwoRegImmLine .sra (fun x => x.toNat) (fun rd rt (sa : BitVec 5) => .sra rd rt sa) ∧
    TwoRegImmLine .srl (fun x => x.toNat) (fun rd rt (sa : BitVec 5) => .srl rd rt sa) ∧
    TwoRegImmLine .beq BitVec.toInt (fun rs rt offset => .beq rs rt offset) ∧
    TwoRegImmLine .bne BitVec.toInt (fun rs rt offset => .bne rs rt offset)) ∧
  (OneRegImmLine .lui (fun x => x.toNat) (fun rt imm => .lui rt imm) ∧
    OneRegImmLine .bgez BitVec.toInt (fun rs offset => .bgez rs offset) ∧
    OneRegImmLine .bgtz BitVec.toInt (fun rs offset => .bgtz rs offset) ∧
    OneRegImmLine .blez BitVec.toInt (fun rs offset => .blez rs offset) ∧
    OneRegImmLine .bltz BitVec.toInt (fun rs offset => .bltz rs offset)) ∧
  (MemLine .lb (fun rt offset base => .lb rt offset base) ∧ MemLine .lw (fun rt offset base => .lw rt offset base) ∧
    MemLine .sb (fun rt offset base => .sb rt offset base) ∧ MemLine .sw (fun rt offset base => .sw rt offset base)) ∧
  (TargetLine .j (fun index => .j index) ∧ TargetLine .jal (fun index => .jal index)) ∧
  (∀ ops i, assemble .jr ops = some i ↔ ∃ rs, ops = [.reg rs] ∧ i = .jr rs) ∧
  (∀ ops i, assemble .jalr ops = some i ↔
    (∃ rd rs, ops = [.reg rd, .reg rs] ∧ i = .jalr rd rs) ∨ ∃ rs, ops = [.reg rs] ∧ i = .jalr 31 rs) ∧
  (∀ v : Int, (∃ x : BitVec 16, x.toInt = v) ↔ -32768 ≤ v ∧ v ≤ 32767) ∧
  (∀ v : Int, (∃ x : BitVec 16, (x.toNat : Int) = v) ↔ 0 ≤ v ∧ v ≤ 65535) ∧
  (∀ v : Int, (∃ x : BitVec 5, (x.toNat : Int) = v) ↔ 0 ≤ v ∧ v ≤ 31) ∧
  (∀ i : Instr, ∃ ops, assemble i.mnemonic ops = some i) ∧ encode nop = 0

/-! ## Reset and the fault state -/

/-- After reset `pending = none` and `status = Running` (R242), with `x[0] = 0` (R241), and the launch parameters where
R240, R241 and R243 put them. -/
def Obligations.ResetState : Prop :=
  ∀ l : Launch, (State.launch l).pending = none ∧ (State.launch l).status = .running ∧ (State.launch l).reg 0 = 0 ∧
    (State.launch l).pc = l.resetPc ∧ (State.launch l).gpr = l.initGpr ∧ (State.launch l).mem = l.image

/-- The state the model names as reset meets the invariant of `StepKeepsMemoryCanonical`, has an aligned pc and a legal
segment map. Its pc, registers, memory and segment map are the model's choice (assumptions 3, 4, 5, 6). -/
def Obligations.ResetMeetsInvariants : Prop :=
  State.reset.mem.wf = true ∧ State.reset.pc.toNat % 4 = 0 ∧ State.reset.cfg.segmap.wellFormed = true

/-- In a fault state there is no step, and nothing sets `status` back (R22, R214, R224). That the step there answers the
outcome `fault`, with the name `stopped` and the cause, is the model's choice of how to say so (assumption 1). -/
def Obligations.FaultedMachineTakesNoStep : Prop :=
  ∀ (s : State) (c : Cause), s.status = .fault c → step s = .fault (.stopped c)

/-- What a raise does (R214): any step that ends in a fault state leaves registers, memory, `pc` and `pending` as before
it, so nothing but `status` differs, and there is no further step. Any other step leaves the machine running. -/
def Obligations.FaultsArePrecise : Prop :=
  ∀ s t : State, s.status = .running → step s = .next t →
    t.status = .running ∨ (∃ c, RaisesOnly s t c ∧ ∀ u, step t ≠ .next u)

/-- From every running state there is a step, and it answers a next state: no configuration, memory or register contents
make it stop or be refused (R22). -/
def Obligations.EveryRunningStateSteps : Prop := ∀ s : State, s.status = .running → ∃ t, step s = .next t

/-- Which instruction raises what (R211, R212, R216, R217), with the information recorded. -/
def Obligations.CausesBelongToTheirInstructions : Prop :=
  ∀ (i : Instr) (s t : State) (c : Cause), exec i s = .next t → s.status = .running → t.status = .fault c →
    match c with
    | .integerOverflow p => i.mnemonic ∈ [Mnemonic.add, .addi, .sub] ∧ p = s.pc
    | .addressError .load _ => i.mnemonic = .lw
    | .addressError .store _ => i.mnemonic = .sw
    | .addressError .fetch _ => False
    | .reservedInstruction _ => False
    | .controlTransferInDelaySlot p => i.isControlTransfer = true ∧ p = s.pc
    | .storeToText _ => i.isStore = true
    | .unmapped .load _ => i.mnemonic ∈ [Mnemonic.lb, .lw]
    | .unmapped .store _ => i.isStore = true
    | .unmapped .fetch _ => False

/-! ## The step -/

/-- When `pc` is aligned, the four bytes at it are RAM, and the word they make, byte 0 least significant, decodes under
`PROFILE` to `i`, the step is `exec i` (R22 steps 1 to 6, R39). -/
def Obligations.StepRunsTheDecodedInstruction : Prop :=
  ∀ (s : State) (i : Instr), s.status = .running → s.pc.toNat % 4 = 0 →
    (∀ k < 4, regionOf s.cfg (physAddr s.cfg s.pc + k) = .ram) →
    decodeIn s.cfg.profile
      (s.mem.read (physAddr s.cfg s.pc + 3) ++ s.mem.read (physAddr s.cfg s.pc + 2) ++
        s.mem.read (physAddr s.cfg s.pc + 1) ++ s.mem.read (physAddr s.cfg s.pc)) = .ok i →
    step s = exec i s

/-- A jump to an address that is no multiple of 4 (R175, R17): JR and JALR complete, so does the delay slot if its
instruction does, and the fetch after it raises AddressError(FETCH, target), whatever stands there. -/
def Obligations.MisalignedTargetFaultsAtTheFetch : Prop :=
  ∀ (i j : Instr) (rs : RegNum) (s u : State), (i = .jr rs ∨ ∃ rd, i = .jalr rd rs) → s.status = .running →
    s.pending = none → (s.reg rs).toNat % 4 ≠ 0 →
    ∃ t, exec i s = .next t ∧ t.status = .running ∧
      (exec j t = .next u → u.status = .running →
        ∃ v, step u = .next v ∧ RaisesOnly u v (.addressError .fetch (s.reg rs)))

/-- A fetched word that matches no row of the opcode table enabled by `PROFILE` makes the step raise
ReservedInstruction with that word, and nothing else changes (R76, R215), whether or not it stands in a delay slot. -/
def Obligations.ReservedWordFaults : Prop :=
  ∀ (s : State) (w : Word), s.status = .running → s.pc.toNat % 4 = 0 →
    (∀ k < 4, regionOf s.cfg (physAddr s.cfg s.pc + k) = .ram) → s.mem.readWord (physAddr s.cfg s.pc) = w →
    (∀ r ∈ opcodeTable, r.mnemonic ∈ s.cfg.profile.mnemonics → w &&& r.mask ≠ r.bits) →
    ∃ t, step s = .next t ∧ RaisesOnly s t (.reservedInstruction w)

/-- The priority of causes (R222): misaligned pc; a fetch that reaches no RAM; a word that does not decode; a control
transfer in a delay slot; overflow or misaligned data; unmapped data; TEXT. -/
def Obligations.FaultPriority : Prop :=
  ∀ s : State, s.status = .running →
    (s.pc.toNat % 4 ≠ 0 → ∃ t, step s = .next t ∧ RaisesOnly s t (.addressError .fetch s.pc)) ∧
    (s.pc.toNat % 4 = 0 →
      (∀ k < 4, regionOf s.cfg (physAddr s.cfg s.pc + k) = .ram) ∨
        ∃ t, step s = .next t ∧ RaisesOnly s t (.unmapped .fetch s.pc)) ∧
    (s.pc.toNat % 4 = 0 → (∀ k < 4, regionOf s.cfg (physAddr s.cfg s.pc + k) = .ram) →
      (∀ e, decodeIn s.cfg.profile (s.mem.readWord (physAddr s.cfg s.pc)) = .error e →
        ∃ t, step s = .next t ∧ RaisesOnly s t (.reservedInstruction (s.mem.readWord (physAddr s.cfg s.pc)))) ∧
      (∀ i, decodeIn s.cfg.profile (s.mem.readWord (physAddr s.cfg s.pc)) = .ok i →
        (i.isControlTransfer = true → s.pending ≠ none →
          ∃ t, step s = .next t ∧ RaisesOnly s t (.controlTransferInDelaySlot s.pc)) ∧
        (∀ rd rs rt,
          (i = .add rd rs rt →
            (s.reg rs).toInt + (s.reg rt).toInt < -2 ^ 31 ∨ 2 ^ 31 - 1 < (s.reg rs).toInt + (s.reg rt).toInt →
            ∃ t, step s = .next t ∧ RaisesOnly s t (.integerOverflow s.pc)) ∧
          (i = .sub rd rs rt →
            (s.reg rs).toInt - (s.reg rt).toInt < -2 ^ 31 ∨ 2 ^ 31 - 1 < (s.reg rs).toInt - (s.reg rt).toInt →
            ∃ t, step s = .next t ∧ RaisesOnly s t (.integerOverflow s.pc))) ∧
        (∀ rt rs imm, i = .addi rt rs imm →
          (s.reg rs).toInt + imm.toInt < -2 ^ 31 ∨ 2 ^ 31 - 1 < (s.reg rs).toInt + imm.toInt →
          ∃ t, step s = .next t ∧ RaisesOnly s t (.integerOverflow s.pc)) ∧
        (∀ rt offset base va, va = effectiveAddr (s.reg base) offset →
          (i = .lw rt offset base → va.toNat % 4 ≠ 0 →
            ∃ t, step s = .next t ∧ RaisesOnly s t (.addressError .load va)) ∧
          (i = .sw rt offset base → va.toNat % 4 ≠ 0 →
            ∃ t, step s = .next t ∧ RaisesOnly s t (.addressError .store va)) ∧
          (i = .lw rt offset base → va.toNat % 4 = 0 → (∃ k < 4, regionOf s.cfg (physAddr s.cfg va + k) = .nothing) →
            ∃ t, step s = .next t ∧ RaisesOnly s t (.unmapped .load va)) ∧
          (i = .lb rt offset base → regionOf s.cfg (physAddr s.cfg va) = .nothing →
            ∃ t, step s = .next t ∧ RaisesOnly s t (.unmapped .load va)) ∧
          (i = .sw rt offset base → va.toNat % 4 = 0 → (∃ k < 4, regionOf s.cfg (physAddr s.cfg va + k) = .nothing) →
            ∃ t, step s = .next t ∧ RaisesOnly s t (.unmapped .store va)) ∧
          (i = .sb rt offset base → regionOf s.cfg (physAddr s.cfg va) = .nothing →
            ∃ t, step s = .next t ∧ RaisesOnly s t (.unmapped .store va)) ∧
          (i = .sw rt offset base → va.toNat % 4 = 0 → (∀ k < 4, regionOf s.cfg (physAddr s.cfg va + k) ≠ .nothing) →
            (∃ k < 4, inText s.cfg (physAddr s.cfg va + k) = true) →
            ∃ t, step s = .next t ∧ RaisesOnly s t (.storeToText va)) ∧
          (i = .sb rt offset base → regionOf s.cfg (physAddr s.cfg va) ≠ .nothing →
            inText s.cfg (physAddr s.cfg va) = true → ∃ t, step s = .next t ∧ RaisesOnly s t (.storeToText va)))))

/-! ## Arithmetic (40_arithmetic.md) -/

/-- ADD and SUB (R103, R107): the exact signed result is written when it fits in 32 bits, else IntegerOverflow is raised
and nothing is written, also when the destination is register 0. -/
def Obligations.AddAndSub : Prop :=
  ∀ (rd rs rt : RegNum) (s : State),
    decodeWord (rType 0b000000 rs rt rd 0b00000 0b100000) = .ok (.add rd rs rt) ∧
    decodeWord (rType 0b000000 rs rt rd 0b00000 0b100010) = .ok (.sub rd rs rt) ∧
    (-2 ^ 31 ≤ (s.reg rs).toInt + (s.reg rt).toInt → (s.reg rs).toInt + (s.reg rt).toInt ≤ 2 ^ 31 - 1 →
      ∃ t, exec (.add rd rs rt) s = .next t ∧
        WritesOnly s t rd (BitVec.ofInt 32 ((s.reg rs).toInt + (s.reg rt).toInt))) ∧
    ((s.reg rs).toInt + (s.reg rt).toInt < -2 ^ 31 ∨ 2 ^ 31 - 1 < (s.reg rs).toInt + (s.reg rt).toInt →
      ∃ t, exec (.add rd rs rt) s = .next t ∧ RaisesOnly s t (.integerOverflow s.pc)) ∧
    (-2 ^ 31 ≤ (s.reg rs).toInt - (s.reg rt).toInt → (s.reg rs).toInt - (s.reg rt).toInt ≤ 2 ^ 31 - 1 →
      ∃ t, exec (.sub rd rs rt) s = .next t ∧
        WritesOnly s t rd (BitVec.ofInt 32 ((s.reg rs).toInt - (s.reg rt).toInt))) ∧
    ((s.reg rs).toInt - (s.reg rt).toInt < -2 ^ 31 ∨ 2 ^ 31 - 1 < (s.reg rs).toInt - (s.reg rt).toInt →
      ∃ t, exec (.sub rd rs rt) s = .next t ∧ RaisesOnly s t (.integerOverflow s.pc))

/-- ADDI (R104): as ADD, the immediate sign-extended. -/
def Obligations.AddImmediate : Prop :=
  ∀ (rt rs : RegNum) (imm : BitVec 16) (s : State),
    decodeWord (iType 0b001000 rs rt imm) = .ok (.addi rt rs imm) ∧
    (-2 ^ 31 ≤ (s.reg rs).toInt + imm.toInt → (s.reg rs).toInt + imm.toInt ≤ 2 ^ 31 - 1 →
      ∃ t, exec (.addi rt rs imm) s = .next t ∧ WritesOnly s t rt (BitVec.ofInt 32 ((s.reg rs).toInt + imm.toInt))) ∧
    ((s.reg rs).toInt + imm.toInt < -2 ^ 31 ∨ 2 ^ 31 - 1 < (s.reg rs).toInt + imm.toInt →
      ∃ t, exec (.addi rt rs imm) s = .next t ∧ RaisesOnly s t (.integerOverflow s.pc))

/-- ADDU and ADDIU (R105, R106): the sum modulo 2^32, ADDIU's immediate sign-extended; they never raise. -/
def Obligations.AdduAndAddiu : Prop :=
  ∀ (rd rs rt : RegNum) (imm : BitVec 16) (s : State),
    decodeWord (rType 0b000000 rs rt rd 0b00000 0b100001) = .ok (.addu rd rs rt) ∧
    decodeWord (iType 0b001001 rs rt imm) = .ok (.addiu rt rs imm) ∧
    (∃ t, exec (.addu rd rs rt) s = .next t ∧
      WritesOnly s t rd (BitVec.ofNat 32 ((s.reg rs).toNat + (s.reg rt).toNat))) ∧
    (∃ t, exec (.addiu rt rs imm) s = .next t ∧ WritesOnly s t rt (BitVec.ofInt 32 ((s.reg rs).toNat + imm.toInt)))

/-- SLT (R108): 1 when `signed(x[rs]) < signed(x[rt])`, else 0. -/
def Obligations.SetOnLessThan : Prop :=
  ∀ (rd rs rt : RegNum) (s : State),
    decodeWord (rType 0b000000 rs rt rd 0b00000 0b101010) = .ok (.slt rd rs rt) ∧
    ∃ t, exec (.slt rd rs rt) s = .next t ∧ WritesOnly s t rd (if (s.reg rs).toInt < (s.reg rt).toInt then 1 else 0)

/-- MUL (R109): the low 32 bits of the exact signed product; it never raises. That they are those of the unsigned product
is the spec's own inference in R102, marked derived there. -/
def Obligations.MultiplyLowWord : Prop :=
  ∀ (rd rs rt : RegNum) (s : State),
    decodeWord (rType 0b011100 rs rt rd 0b00000 0b000010) = .ok (.mul rd rs rt) ∧
    ∃ t, exec (.mul rd rs rt) s = .next t ∧
      WritesOnly s t rd (BitVec.ofInt 32 ((s.reg rs).toInt * (s.reg rt).toInt)) ∧
      WritesOnly s t rd (BitVec.ofNat 32 ((s.reg rs).toNat * (s.reg rt).toNat))

/-- The source's 33-bit overflow test says that the exact result leaves the 32-bit range; for addition that is two
operands of one sign and a sum of the other, for subtraction two signs and a difference with the subtrahend's (R101). -/
def Obligations.OverflowTestIsExact : Prop :=
  ∀ a b : Word,
    (overflows (sext33 a + sext33 b) = true ↔ a.toInt + b.toInt < -2 ^ 31 ∨ 2 ^ 31 - 1 < a.toInt + b.toInt) ∧
    (overflows (sext33 a - sext33 b) = true ↔ a.toInt - b.toInt < -2 ^ 31 ∨ 2 ^ 31 - 1 < a.toInt - b.toInt) ∧
    (overflows (sext33 a + sext33 b) = true ↔ a.msb = b.msb ∧ (a + b).msb ≠ a.msb) ∧
    (overflows (sext33 a - sext33 b) = true ↔ a.msb ≠ b.msb ∧ (a - b).msb = b.msb)

/-! ## Logic (41_logic.md) -/

/-- AND, OR, XOR (R121, R124, R126): bit `k` of the result depends on bit `k` of the operands alone (R120). -/
def Obligations.BitwiseRegisterForms : Prop :=
  ∀ (rd rs rt : RegNum) (s : State),
    decodeWord (rType 0b000000 rs rt rd 0b00000 0b100100) = .ok (.and rd rs rt) ∧
    decodeWord (rType 0b000000 rs rt rd 0b00000 0b100101) = .ok (.or rd rs rt) ∧
    decodeWord (rType 0b000000 rs rt rd 0b00000 0b100110) = .ok (.xor rd rs rt) ∧
    (∃ t v, exec (.and rd rs rt) s = .next t ∧ WritesOnly s t rd v ∧
      ∀ k, v.getLsbD k = ((s.reg rs).getLsbD k && (s.reg rt).getLsbD k)) ∧
    (∃ t v, exec (.or rd rs rt) s = .next t ∧ WritesOnly s t rd v ∧
      ∀ k, v.getLsbD k = ((s.reg rs).getLsbD k || (s.reg rt).getLsbD k)) ∧
    (∃ t v, exec (.xor rd rs rt) s = .next t ∧ WritesOnly s t rd v ∧
      ∀ k, v.getLsbD k = ((s.reg rs).getLsbD k ^^ (s.reg rt).getLsbD k))

/-- ANDI, ORI, XORI (R122, R125, R127): the immediate is zero-extended, so above bit 15 ANDI gives 0 and ORI and XORI
give the register's bits (R120). That ORI raises nothing is the spec's own inference in R125, marked derived there. -/
def Obligations.BitwiseImmediateForms : Prop :=
  ∀ (rt rs : RegNum) (imm : BitVec 16) (s : State),
    decodeWord (iType 0b001100 rs rt imm) = .ok (.andi rt rs imm) ∧
    decodeWord (iType 0b001101 rs rt imm) = .ok (.ori rt rs imm) ∧
    decodeWord (iType 0b001110 rs rt imm) = .ok (.xori rt rs imm) ∧
    (∃ t v, exec (.andi rt rs imm) s = .next t ∧ WritesOnly s t rt v ∧
      (∀ k < 16, v.getLsbD k = ((s.reg rs).getLsbD k && imm.getLsbD k)) ∧ ∀ k, 16 ≤ k → v.getLsbD k = false) ∧
    (∃ t v, exec (.ori rt rs imm) s = .next t ∧ WritesOnly s t rt v ∧
      (∀ k < 16, v.getLsbD k = ((s.reg rs).getLsbD k || imm.getLsbD k)) ∧
      ∀ k, 16 ≤ k → v.getLsbD k = (s.reg rs).getLsbD k) ∧
    (∃ t v, exec (.xori rt rs imm) s = .next t ∧ WritesOnly s t rt v ∧
      (∀ k < 16, v.getLsbD k = ((s.reg rs).getLsbD k ^^ imm.getLsbD k)) ∧
      ∀ k, 16 ≤ k → v.getLsbD k = (s.reg rs).getLsbD k)

/-- LUI (R123): the immediate in the high half, zero in the low half. -/
def Obligations.LoadUpperImmediate : Prop :=
  ∀ (rt : RegNum) (imm : BitVec 16) (s : State),
    decodeWord (iType 0b001111 0b00000 rt imm) = .ok (.lui rt imm) ∧
    ∃ t, exec (.lui rt imm) s = .next t ∧ WritesOnly s t rt (BitVec.ofNat 32 (imm.toNat * 2 ^ 16))

/-! ## Shifts (42_shift.md) -/

/-- SLLV and SLL (R141, R142): `(x[rt] * 2^s) mod 2^32`, the register amount taken modulo 32. -/
def Obligations.ShiftLeftLogical : Prop :=
  ∀ (rd rt rs : RegNum) (sa : BitVec 5) (s : State),
    decodeWord (rType 0b000000 rs rt rd 0b00000 0b000100) = .ok (.sllv rd rt rs) ∧
    decodeWord (rType 0b000000 0b00000 rt rd sa 0b000000) = .ok (.sll rd rt sa) ∧
    (∃ t, exec (.sllv rd rt rs) s = .next t ∧
      WritesOnly s t rd (BitVec.ofNat 32 ((s.reg rt).toNat * 2 ^ ((s.reg rs).toNat % 32)))) ∧
    (∃ t, exec (.sll rd rt sa) s = .next t ∧ WritesOnly s t rd (BitVec.ofNat 32 ((s.reg rt).toNat * 2 ^ sa.toNat)))

/-- SRAV and SRA (R143, R144): `floor(signed(x[rt]) / 2^s)`, the register amount taken modulo 32. -/
def Obligations.ShiftRightArithmetic : Prop :=
  ∀ (rd rt rs : RegNum) (sa : BitVec 5) (s : State),
    decodeWord (rType 0b000000 rs rt rd 0b00000 0b000111) = .ok (.srav rd rt rs) ∧
    decodeWord (rType 0b000000 0b00000 rt rd sa 0b000011) = .ok (.sra rd rt sa) ∧
    (∃ t, exec (.srav rd rt rs) s = .next t ∧
      WritesOnly s t rd (BitVec.ofInt 32 ((s.reg rt).toInt.fdiv (2 ^ ((s.reg rs).toNat % 32))))) ∧
    (∃ t, exec (.sra rd rt sa) s = .next t ∧
      WritesOnly s t rd (BitVec.ofInt 32 ((s.reg rt).toInt.fdiv (2 ^ sa.toNat))))

/-- SRLV and SRL (R145, R146): `floor(unsigned(x[rt]) / 2^s)`, the register amount taken modulo 32. -/
def Obligations.ShiftRightLogical : Prop :=
  ∀ (rd rt rs : RegNum) (sa : BitVec 5) (s : State),
    decodeWord (rType 0b000000 rs rt rd 0b00000 0b000110) = .ok (.srlv rd rt rs) ∧
    decodeWord (rType 0b000000 0b00000 rt rd sa 0b000010) = .ok (.srl rd rt sa) ∧
    (∃ t, exec (.srlv rd rt rs) s = .next t ∧
      WritesOnly s t rd (BitVec.ofNat 32 ((s.reg rt).toNat / 2 ^ ((s.reg rs).toNat % 32)))) ∧
    (∃ t, exec (.srl rd rt sa) s = .next t ∧ WritesOnly s t rd (BitVec.ofNat 32 ((s.reg rt).toNat / 2 ^ sa.toNat)))

/-! ## Branches and jumps (43_branch_jump.md) -/

/-- BEQ and BNE (R164, R165): pending is the target `(A + 4) + 4 * offset` modulo 2^32 when the condition holds, else
`A + 8`; control goes to the delay slot in both cases. -/
def Obligations.BranchOnEquality : Prop :=
  ∀ (rs rt : RegNum) (offset : BitVec 16) (s : State),
    decodeWord (iType 0b000100 rs rt offset) = .ok (.beq rs rt offset) ∧
    decodeWord (iType 0b000101 rs rt offset) = .ok (.bne rs rt offset) ∧
    (s.pending = none →
      (∃ t, exec (.beq rs rt offset) s = .next t ∧
        BranchesOnly s t (if s.reg rs = s.reg rt then BitVec.ofInt 32 (s.pc.toNat + 4 + 4 * offset.toInt) else s.pc + 8)) ∧
      (∃ t, exec (.bne rs rt offset) s = .next t ∧
        BranchesOnly s t (if s.reg rs ≠ s.reg rt then BitVec.ofInt 32 (s.pc.toNat + 4 + 4 * offset.toInt) else s.pc + 8)))

/-- BGEZ, BGTZ, BLEZ, BLTZ (R166 to R169): as BEQ, the condition a signed comparison with zero. That BGEZ's comparison is
signed is the spec's own inference in R166, marked derived there. -/
def Obligations.BranchOnSign : Prop :=
  ∀ (rs : RegNum) (offset : BitVec 16) (s : State),
    decodeWord (iType 0b000001 rs 0b00001 offset) = .ok (.bgez rs offset) ∧
    decodeWord (iType 0b000111 rs 0b00000 offset) = .ok (.bgtz rs offset) ∧
    decodeWord (iType 0b000110 rs 0b00000 offset) = .ok (.blez rs offset) ∧
    decodeWord (iType 0b000001 rs 0b00000 offset) = .ok (.bltz rs offset) ∧
    (s.pending = none →
      (∃ t, exec (.bgez rs offset) s = .next t ∧
        BranchesOnly s t (if 0 ≤ (s.reg rs).toInt then BitVec.ofInt 32 (s.pc.toNat + 4 + 4 * offset.toInt) else s.pc + 8)) ∧
      (∃ t, exec (.bgtz rs offset) s = .next t ∧
        BranchesOnly s t (if 0 < (s.reg rs).toInt then BitVec.ofInt 32 (s.pc.toNat + 4 + 4 * offset.toInt) else s.pc + 8)) ∧
      (∃ t, exec (.blez rs offset) s = .next t ∧
        BranchesOnly s t (if (s.reg rs).toInt ≤ 0 then BitVec.ofInt 32 (s.pc.toNat + 4 + 4 * offset.toInt) else s.pc + 8)) ∧
      (∃ t, exec (.bltz rs offset) s = .next t ∧
        BranchesOnly s t (if (s.reg rs).toInt < 0 then BitVec.ofInt 32 (s.pc.toNat + 4 + 4 * offset.toInt) else s.pc + 8)))

/-- J and JAL (R170, R171): the target is the 256 MB region of the delay slot with `instr_index` words in it; JAL links
`A + 8` in r31. -/
def Obligations.DirectJumps : Prop :=
  ∀ (index : BitVec 26) (s : State) (a : Word),
    a.toNat = (s.pc + 4).toNat / 2 ^ 28 * 2 ^ 28 + 4 * index.toNat →
    decodeWord (jType 0b000010 index) = .ok (.j index) ∧ decodeWord (jType 0b000011 index) = .ok (.jal index) ∧
    (s.pending = none →
      (∃ t, exec (.j index) s = .next t ∧ BranchesOnly s t a) ∧
      (∃ t, exec (.jal index) s = .next t ∧ RegWritten s t 31 (s.pc + 8) ∧ Delays s t a ∧ SameMemory s t ∧
        SameRest s t))

/-- JR and JALR (R172, R173): the target is the value of `x[rs]` before the link is written, also when rd = rs, and is
not checked; JALR links `A + 8` in rd, or nowhere when rd = 0. -/
def Obligations.RegisterJumps : Prop :=
  ∀ (rd rs : RegNum) (s : State),
    decodeWord (rType 0b000000 rs 0b00000 0b00000 0b00000 0b001000) = .ok (.jr rs) ∧
    decodeWord (rType 0b000000 rs 0b00000 rd 0b00000 0b001001) = .ok (.jalr rd rs) ∧
    (s.pending = none →
      (∃ t, exec (.jr rs) s = .next t ∧ BranchesOnly s t (s.reg rs)) ∧
      (∃ t, exec (.jalr rd rs) s = .next t ∧ RegWritten s t rd (s.pc + 8) ∧ Delays s t (s.reg rs) ∧ SameMemory s t ∧
        SameRest s t))

/-- One of the ten control transfers in a delay slot, of a taken or a not-taken branch, raises
ControlTransferInDelaySlot(pc) and changes nothing else: no link is written (R161). -/
def Obligations.ControlTransferInDelaySlotFaults : Prop :=
  ∀ (i : Instr) (s : State), i.isControlTransfer = true → s.pending ≠ none →
    ∃ t, exec i s = .next t ∧ RaisesOnly s t (.controlTransferInDelaySlot s.pc)

/-- The advance of pc (R15), over all instructions: an instruction that completes outside a delay slot goes to `pc + 4`
modulo 2^32, one that completes in a delay slot goes to the pending address. -/
def Obligations.PcAdvance : Prop :=
  ∀ (i : Instr) (s t : State), s.status = .running → exec i s = .next t → t.status = .running →
    (s.pending = none → t.pc = s.pc + 4) ∧ (∀ a, s.pending = some a → t.pc = a)

/-- Only the ten control transfers set `pending`, they always do, and every other instruction that completes leaves it
`none` (R16). -/
def Obligations.OnlyControlTransfersSetPending : Prop :=
  ∀ (i : Instr) (s t : State), s.status = .running → exec i s = .next t → t.status = .running →
    (t.pending ≠ none ↔ i.isControlTransfer = true)

/-- The delay slot (R160): a control transfer at A is followed by the instruction at A + 4, and when that one completes,
whatever registers or memory it changed, control goes to the target fixed by the transfer. -/
def Obligations.DelaySlotRunsBeforeTheTarget : Prop :=
  ∀ (i j : Instr) (s t u : State), i.isControlTransfer = true → s.status = .running → exec i s = .next t →
    t.status = .running → exec j t = .next u → u.status = .running →
    t.pc = s.pc + 4 ∧ j.isControlTransfer = false ∧ t.pending = some u.pc ∧ u.pending = none

/-- Only JR and JALR can lead to a misaligned pc (R17, R175): from an aligned pc with an aligned or no pending target,
every other instruction leads to the same. -/
def Obligations.PcStaysAligned : Prop :=
  ∀ (i : Instr) (s t : State), (∀ r, i = .jr r → (s.reg r).toNat % 4 = 0) →
    (∀ d r, i = .jalr d r → (s.reg r).toNat % 4 = 0) → exec i s = .next t →
    s.pc.toNat % 4 = 0 → (∀ a, s.pending = some a → a.toNat % 4 = 0) →
    t.pc.toNat % 4 = 0 ∧ ∀ a, t.pending = some a → a.toNat % 4 = 0

/-! ## Loads and stores (44_load_store.md) -/

/-- The effective address is the base plus the signed offset, modulo 2^32 (R190). -/
def Obligations.EffectiveAddress : Prop :=
  ∀ (base : Word) (offset : BitVec 16), effectiveAddr base offset = BitVec.ofInt 32 (base.toNat + offset.toInt)

/-- Word accesses must be aligned (R33): on a virtual address that is no multiple of 4, wherever it leads, LW and SW raise
AddressError with that address, nothing is read or written and LW's destination keeps its value. Byte accesses have no
alignment requirement (R34): no LB and no SB ends in an AddressError. -/
def Obligations.DataAlignment : Prop :=
  ∀ (rt : RegNum) (offset : BitVec 16) (base : RegNum) (s : State) (va : Word),
    va = effectiveAddr (s.reg base) offset →
    (va.toNat % 4 ≠ 0 →
      (∃ t, exec (.lw rt offset base) s = .next t ∧ RaisesOnly s t (.addressError .load va) ∧ t.reg rt = s.reg rt ∧
        t.draws = s.draws) ∧
      (∃ t, exec (.sw rt offset base) s = .next t ∧ RaisesOnly s t (.addressError .store va) ∧ SameMemory s t ∧
        t.outputs = s.outputs)) ∧
    (s.status = .running → ∀ t d a,
      exec (.lb rt offset base) s = .next t ∨ exec (.sb rt offset base) s = .next t →
      t.status ≠ .fault (.addressError d a))

/-- LB (R191): at any address, aligned or not, the RAM byte is loaded sign-extended; a device read draws a value of the
environment's; where nothing stands, Unmapped(LOAD) is raised. -/
def Obligations.LoadByte : Prop :=
  ∀ (rt : RegNum) (offset : BitVec 16) (base : RegNum) (s : State) (va : Word),
    va = effectiveAddr (s.reg base) offset →
    decodeWord (iType 0b100000 base rt offset) = .ok (.lb rt offset base) ∧
    (regionOf s.cfg (physAddr s.cfg va) = .ram →
      ∃ t, exec (.lb rt offset base) s = .next t ∧
        WritesOnly s t rt (BitVec.ofInt 32 (s.mem.read (physAddr s.cfg va)).toInt)) ∧
    (regionOf s.cfg (physAddr s.cfg va) = .device →
      ∃ (t : State) (b : Byte), exec (.lb rt offset base) s = .next t ∧ RegWritten s t rt (BitVec.ofInt 32 b.toInt) ∧
        b.toNat = (Config.deviceDraw s.draws).toNat % 256 ∧ GoesOn s t ∧ SameMemory s t ∧ t.cfg = s.cfg ∧
        t.status = s.status ∧ t.draws = s.draws + 1 ∧ t.outputs = s.outputs) ∧
    (regionOf s.cfg (physAddr s.cfg va) = .nothing →
      ∃ t, exec (.lb rt offset base) s = .next t ∧ RaisesOnly s t (.unmapped .load va))

/-- LW (R192): an aligned word of RAM is loaded little-endian; a misaligned address raises AddressError(LOAD), whatever
stands there; a device read draws a value; where a byte has nothing, Unmapped(LOAD) is raised. -/
def Obligations.LoadWord : Prop :=
  ∀ (rt : RegNum) (offset : BitVec 16) (base : RegNum) (s : State) (va : Word),
    va = effectiveAddr (s.reg base) offset →
    decodeWord (iType 0b100011 base rt offset) = .ok (.lw rt offset base) ∧
    (va.toNat % 4 ≠ 0 → ∃ t, exec (.lw rt offset base) s = .next t ∧ RaisesOnly s t (.addressError .load va)) ∧
    (va.toNat % 4 = 0 → (∀ k < 4, regionOf s.cfg (physAddr s.cfg va + k) ≠ .nothing) →
      (regionOf s.cfg (physAddr s.cfg va) = .ram →
        ∃ t, exec (.lw rt offset base) s = .next t ∧
          WritesOnly s t rt
            (s.mem.read (physAddr s.cfg va + 3) ++ s.mem.read (physAddr s.cfg va + 2) ++
              s.mem.read (physAddr s.cfg va + 1) ++ s.mem.read (physAddr s.cfg va))) ∧
      (regionOf s.cfg (physAddr s.cfg va) = .device →
        ∃ t, exec (.lw rt offset base) s = .next t ∧ RegWritten s t rt (Config.deviceDraw s.draws) ∧ GoesOn s t ∧
          SameMemory s t ∧ t.cfg = s.cfg ∧ t.status = s.status ∧ t.draws = s.draws + 1 ∧ t.outputs = s.outputs)) ∧
    (va.toNat % 4 = 0 → (∃ k < 4, regionOf s.cfg (physAddr s.cfg va + k) = .nothing) →
      ∃ t, exec (.lw rt offset base) s = .next t ∧ RaisesOnly s t (.unmapped .load va))

/-- SB (R193): the lowest byte of `x[rt]` is stored at any address, and no other byte changes; a device write is handed to
the environment with memory unchanged; Unmapped(STORE) and StoreToText are raised as R37 says. -/
def Obligations.StoreByte : Prop :=
  ∀ (rt : RegNum) (offset : BitVec 16) (base : RegNum) (s : State) (va : Word) (b : Byte),
    va = effectiveAddr (s.reg base) offset → b.toNat = (s.reg rt).toNat % 256 →
    decodeWord (iType 0b101000 base rt offset) = .ok (.sb rt offset base) ∧
    (regionOf s.cfg (physAddr s.cfg va) = .ram → inText s.cfg (physAddr s.cfg va) = false →
      ∃ t, exec (.sb rt offset base) s = .next t ∧ t.mem.read (physAddr s.cfg va) = b ∧
        SameMemoryBut (physAddr s.cfg va) 1 s t ∧ SameRegs s t ∧ GoesOn s t ∧ SameRest s t) ∧
    (regionOf s.cfg (physAddr s.cfg va) = .device → inText s.cfg (physAddr s.cfg va) = false →
      ∃ t, exec (.sb rt offset base) s = .next t ∧ t.outputs = s.outputs ++ [.byte (physAddr s.cfg va) b] ∧
        SameMemory s t ∧ SameRegs s t ∧ GoesOn s t ∧ t.cfg = s.cfg ∧ t.status = s.status ∧ t.draws = s.draws) ∧
    (regionOf s.cfg (physAddr s.cfg va) = .nothing →
      ∃ t, exec (.sb rt offset base) s = .next t ∧ RaisesOnly s t (.unmapped .store va)) ∧
    (regionOf s.cfg (physAddr s.cfg va) ≠ .nothing → inText s.cfg (physAddr s.cfg va) = true →
      ∃ t, exec (.sb rt offset base) s = .next t ∧ RaisesOnly s t (.storeToText va))

/-- SW (R194): the word is stored little-endian at an aligned address, and no byte outside its four changes; a misaligned
address raises AddressError(STORE), whatever stands there; the rest as SB. -/
def Obligations.StoreWord : Prop :=
  ∀ (rt : RegNum) (offset : BitVec 16) (base : RegNum) (s : State) (va : Word),
    va = effectiveAddr (s.reg base) offset →
    decodeWord (iType 0b101011 base rt offset) = .ok (.sw rt offset base) ∧
    (va.toNat % 4 ≠ 0 → ∃ t, exec (.sw rt offset base) s = .next t ∧ RaisesOnly s t (.addressError .store va)) ∧
    (va.toNat % 4 = 0 → (∀ k < 4, regionOf s.cfg (physAddr s.cfg va + k) ≠ .nothing) →
      (∀ k < 4, inText s.cfg (physAddr s.cfg va + k) = false) →
      (regionOf s.cfg (physAddr s.cfg va) = .ram →
        ∃ t, exec (.sw rt offset base) s = .next t ∧
          (∀ k < 4, (t.mem.read (physAddr s.cfg va + k)).toNat = (s.reg rt).toNat / 2 ^ (8 * k) % 256) ∧
          SameMemoryBut (physAddr s.cfg va) 4 s t ∧ SameRegs s t ∧ GoesOn s t ∧ SameRest s t) ∧
      (regionOf s.cfg (physAddr s.cfg va) = .device →
        ∃ t, exec (.sw rt offset base) s = .next t ∧
          t.outputs = s.outputs ++ [.word (physAddr s.cfg va) (s.reg rt)] ∧ SameMemory s t ∧ SameRegs s t ∧
          GoesOn s t ∧ t.cfg = s.cfg ∧ t.status = s.status ∧ t.draws = s.draws)) ∧
    (va.toNat % 4 = 0 → (∃ k < 4, regionOf s.cfg (physAddr s.cfg va + k) = .nothing) →
      ∃ t, exec (.sw rt offset base) s = .next t ∧ RaisesOnly s t (.unmapped .store va)) ∧
    (va.toNat % 4 = 0 → (∀ k < 4, regionOf s.cfg (physAddr s.cfg va + k) ≠ .nothing) →
      (∃ k < 4, inText s.cfg (physAddr s.cfg va + k) = true) →
      ∃ t, exec (.sw rt offset base) s = .next t ∧ RaisesOnly s t (.storeToText va))

/-! ## Memory (20_memory.md) -/

/-- Little-endian mixed-width access (R32): byte `k` of a stored word, the word of four stored bytes, and a byte store
that changes only its own byte of the word. -/
def Obligations.MixedWidthAccess : Prop :=
  ∀ (m : Memory) (a : Nat) (w : Word) (b b0 b1 b2 b3 : Byte),
    (∀ k < 4, (m.writeWord a w).read (a + k) = w.extractLsb' (8 * k) 8) ∧
    ((((m.write a b0).write (a + 1) b1).write (a + 2) b2).write (a + 3) b3).readWord a = b3 ++ b2 ++ b1 ++ b0 ∧
    (∀ k < 4, ∀ j < 4, ((m.write (a + k) b).readWord a).extractLsb' (8 * j) 8 =
      if j = k then b else (m.readWord a).extractLsb' (8 * j) 8)

/-- A load after a store to the same physical bytes sees what was stored, whatever virtual address each used (R46), in all
four widths (R32): LW after SW the word, LB after SW a byte of it, LB after SB the byte, LW after SB the word with that byte
in its place and the others as before. -/
def Obligations.LoadSeesTheLatestStore : Prop :=
  ∀ (rt rt' base base' : RegNum) (offset offset' : BitVec 16) (s : State) (va va' : Word), rt' ≠ 0 →
    va = effectiveAddr (s.reg base) offset → va' = effectiveAddr (s.reg base') offset' →
    (va.toNat % 4 = 0 → (∀ k < 4, regionOf s.cfg (physAddr s.cfg va + k) = .ram) →
      (∀ k < 4, inText s.cfg (physAddr s.cfg va + k) = false) →
      (va'.toNat % 4 = 0 → physAddr s.cfg va' = physAddr s.cfg va →
        ∃ t u, exec (.sw rt offset base) s = .next t ∧ exec (.lw rt' offset' base') t = .next u ∧
          u.reg rt' = s.reg rt) ∧
      (∀ k < 4, physAddr s.cfg va' = physAddr s.cfg va + k →
        ∃ t u, exec (.sw rt offset base) s = .next t ∧ exec (.lb rt' offset' base') t = .next u ∧
          u.reg rt' = BitVec.ofInt 32 ((s.reg rt).extractLsb' (8 * k) 8).toInt)) ∧
    (regionOf s.cfg (physAddr s.cfg va) = .ram → inText s.cfg (physAddr s.cfg va) = false →
      (physAddr s.cfg va' = physAddr s.cfg va →
        ∃ t u, exec (.sb rt offset base) s = .next t ∧ exec (.lb rt' offset' base') t = .next u ∧
          u.reg rt' = BitVec.ofInt 32 ((s.reg rt).extractLsb' 0 8).toInt) ∧
      (∀ k < 4, va'.toNat % 4 = 0 → (∀ j < 4, regionOf s.cfg (physAddr s.cfg va' + j) = .ram) →
        physAddr s.cfg va = physAddr s.cfg va' + k →
        ∃ t u, exec (.sb rt offset base) s = .next t ∧ exec (.lw rt' offset' base') t = .next u ∧
          ∀ j < 4, (u.reg rt').extractLsb' (8 * j) 8 =
            if j = k then (s.reg rt).extractLsb' 0 8 else s.mem.read (physAddr s.cfg va' + j)))

/-- The fixed mapping (R41): on a legal segment map every virtual address lies in exactly one of the five segments and is
mapped linearly from it, whatever the kind and direction of the access, with the one access type. -/
def Obligations.TranslationIsFixedAndLinear : Prop :=
  ∀ (c : Config) (va : Word) (kind : AccessKind) (dir : AccessDir), c.segmap.wellFormed = true →
    c.segmap.segments.length = 5 ∧
    ∃ g ∈ c.segmap.segments, g.vbase ≤ va.toNat ∧ va.toNat < g.vbase + g.size ∧
      translate c va kind dir = (g.pbase + (va.toNat - g.vbase), .uncached) ∧
      ∀ h ∈ c.segmap.segments, h.vbase ≤ va.toNat → va.toNat < h.vbase + h.size → h = g

/-- On a legal segment map the four bytes of an aligned word lie in one segment, at four consecutive physical addresses
of the physical space, the first a multiple of 4 (R36, R44). -/
def Obligations.AlignedWordStaysInOneSegment : Prop :=
  ∀ (c : Config) (va : Word), c.segmap.wellFormed = true → va.toNat % 4 = 0 →
    physAddr c va % 4 = 0 ∧ physAddr c va + 3 < 2 ^ 32 ∧
    ∀ k < 4, physAddr c (va + BitVec.ofNat 32 k) = physAddr c va + k

/-- Under the recommended segment map the same physical byte is visible in kuseg, kseg0 and kseg1 (R42). The map is the
spec's recommendation from general knowledge (assumption 6). -/
def Obligations.DefaultMapAliases : Prop :=
  ∀ p < 0x20000000, physAddr Config.default (BitVec.ofNat 32 p) = p ∧
    physAddr Config.default (BitVec.ofNat 32 (0x80000000 + p)) = p ∧
    physAddr Config.default (BitVec.ofNat 32 (0xA0000000 + p)) = p

/-- Memory is written by SB and SW alone (R44). -/
def Obligations.OnlyStoresWriteMemory : Prop :=
  ∀ (i : Instr) (s t : State), i.isStore = false → exec i s = .next t → t.mem = s.mem

/-- The bytes in `TEXT` never change (R49): no step writes one. -/
def Obligations.TextNeverChanges : Prop :=
  ∀ (s t : State) (pa : Nat), inText s.cfg pa = true → step s = .next t → t.mem.read pa = s.mem.read pa

/-- Every step keeps memory in its canonical form, with every listed address in the physical space (R44). -/
def Obligations.StepKeepsMemoryCanonical : Prop :=
  ∀ s t : State, s.mem.wf = true → step s = .next t → t.mem.wf = true

/-- No step writes the configuration: the mapping is fixed (R41, R22). -/
def Obligations.ConfigurationIsFixed : Prop := ∀ s t : State, step s = .next t → t.cfg = s.cfg

/-- What meets the environment (R40, R45): one step makes at most one device read and hands out at most one event, never
both, and outputs are never taken back. -/
def Obligations.OneDeviceAccessPerStep : Prop :=
  ∀ s t : State, step s = .next t →
    (t.draws = s.draws ∧ t.outputs = s.outputs) ∨ (t.draws = s.draws + 1 ∧ t.outputs = s.outputs ∧ t.mem = s.mem) ∨
      (t.draws = s.draws ∧ (∃ o, t.outputs = s.outputs ++ [o]) ∧ t.mem = s.mem)

/-! ## Whole-machine rules -/

/-- Which register an instruction may write (R13): every register but the one the table names (none for the branches, J,
JR and the stores; r31 for JAL) reads as before, over all instructions, completing or raising. -/
def Obligations.OnlyTheNamedRegisterIsWritten : Prop :=
  ∀ (i : Instr) (s t : State) (r : RegNum), i.writes ≠ some r → exec i s = .next t → t.reg r = s.reg r

/-- Which registers an instruction reads (R13): changing a register the table does not name as read changes nothing of
what the instruction does, but that register itself. -/
def Obligations.UnreadRegistersDoNotMatter : Prop :=
  ∀ (i : Instr) (s : State) (q : RegNum) (v : Word), q ∉ i.reads →
    ∃ t u, exec i s = .next t ∧ exec i (s.setReg q v) = .next u ∧ u.pc = t.pc ∧ u.pending = t.pending ∧
      u.mem = t.mem ∧ u.status = t.status ∧ u.draws = t.draws ∧ u.outputs = t.outputs ∧ u.cfg = t.cfg ∧
      ∀ r, r ≠ q → u.reg r = t.reg r

/-- The hardwired register (R11): register 0 reads 0 in every state, a write to it changes nothing, an instruction with
destination 0 leaves every register as it was, and ADD, SUB and ADDI with destination 0 still raise IntegerOverflow, on
overflow of either sign (that the test is made with destination 0 is marked derived in R11). -/
def Obligations.RegisterZero : Prop :=
  (∀ s : State, s.reg 0 = 0) ∧ (∀ (s : State) (v : Word), s.setReg 0 v = s) ∧
  (∀ (i : Instr) (s t : State), i.writes = some 0 → exec i s = .next t → SameRegs s t) ∧
  ∀ (rs rt : RegNum) (imm : BitVec 16) (s : State),
    ((s.reg rs).toInt + (s.reg rt).toInt < -2 ^ 31 ∨ 2 ^ 31 - 1 < (s.reg rs).toInt + (s.reg rt).toInt →
      ∃ t, exec (.add 0 rs rt) s = .next t ∧ RaisesOnly s t (.integerOverflow s.pc)) ∧
    ((s.reg rs).toInt - (s.reg rt).toInt < -2 ^ 31 ∨ 2 ^ 31 - 1 < (s.reg rs).toInt - (s.reg rt).toInt →
      ∃ t, exec (.sub 0 rs rt) s = .next t ∧ RaisesOnly s t (.integerOverflow s.pc)) ∧
    ((s.reg rs).toInt + imm.toInt < -2 ^ 31 ∨ 2 ^ 31 - 1 < (s.reg rs).toInt + imm.toInt →
      ∃ t, exec (.addi 0 rs imm) s = .next t ∧ RaisesOnly s t (.integerOverflow s.pc))

/-- A run has ended when it stands at `END_PC`, running, with nothing pending, before that word is fetched (R244): such a
run is over in no steps, whatever is at `END_PC`. -/
def Obligations.RunEndsBeforeFetchingAtEndPc : Prop :=
  ∀ (n : Nat) (s : State), s.status = .running → s.cfg.endPc = some s.pc → s.pending = none →
    runToEnd n s = .ended s
end

