-- ==== Sys2Proof/Laws/Fields.lean ====
section
/-! SUPPORT. Fields and layouts of a word (R61 to R63): the number an append stands for, each field of a laid-out word,
and every word as the layout of its own fields. -/

namespace Sys2Proof

theorem toNat_append_eq {m n : Nat} (x : BitVec m) (y : BitVec n) : (x ++ y).toNat = x.toNat * 2 ^ n + y.toNat := by
  rw [BitVec.toNat_append, ← Nat.shiftLeft_add_eq_or_of_lt y.isLt, Nat.shiftLeft_eq]

theorem rType_toNat (op : BitVec 6) (rs rt rd : RegNum) (sa : BitVec 5) (f : BitVec 6) :
    (rType op rs rt rd sa f).toNat =
      op.toNat * 2 ^ 26 + rs.toNat * 2 ^ 21 + rt.toNat * 2 ^ 16 + rd.toNat * 2 ^ 11 + sa.toNat * 2 ^ 6 + f.toNat := by
  have h1 := toNat_append_eq (op ++ rs ++ rt ++ rd ++ sa) f
  have h2 := toNat_append_eq (op ++ rs ++ rt ++ rd) sa
  have h3 := toNat_append_eq (op ++ rs ++ rt) rd
  have h4 := toNat_append_eq (op ++ rs) rt
  have h5 := toNat_append_eq op rs
  simp only [rType]
  omega

theorem iType_toNat (op : BitVec 6) (rs rt : RegNum) (imm : BitVec 16) :
    (iType op rs rt imm).toNat = op.toNat * 2 ^ 26 + rs.toNat * 2 ^ 21 + rt.toNat * 2 ^ 16 + imm.toNat := by
  have h1 : (iType op rs rt imm).toNat = _ := toNat_append_eq (op ++ rs ++ rt) imm
  have h2 : (op ++ rs ++ rt).toNat = _ := toNat_append_eq (op ++ rs) rt
  have h3 := toNat_append_eq op rs
  rw [h1, h2, h3]
  omega

theorem jType_toNat (op : BitVec 6) (index : BitVec 26) :
    (jType op index).toNat = op.toNat * 2 ^ 26 + index.toNat := toNat_append_eq op index

theorem wordOfBytes_toNat (b0 b1 b2 b3 : Byte) :
    (wordOfBytes b0 b1 b2 b3).toNat = b3.toNat * 2 ^ 24 + b2.toNat * 2 ^ 16 + b1.toNat * 2 ^ 8 + b0.toNat := by
  refine (toNat_append_eq (b3 ++ b2 ++ b1) b0).trans ?_
  rw [toNat_append_eq (b3 ++ b2) b1, toNat_append_eq b3 b2]
  omega

theorem byteOf_toNat (w : Word) (i : Nat) : (byteOf w i).toNat = w.toNat / 2 ^ (8 * i) % 2 ^ 8 := by
  simp [byteOf, BitVec.extractLsb'_toNat, Nat.shiftRight_eq_div_pow]

/-! ## Fields as numbers -/

theorem opcodeOf_toNat (w : Word) : (opcodeOf w).toNat = w.toNat / 2 ^ 26 % 2 ^ 6 := by
  simp [opcodeOf, BitVec.extractLsb'_toNat, Nat.shiftRight_eq_div_pow]
theorem rsOf_toNat (w : Word) : (rsOf w).toNat = w.toNat / 2 ^ 21 % 2 ^ 5 := by
  simp [rsOf, BitVec.extractLsb'_toNat, Nat.shiftRight_eq_div_pow]
theorem rtOf_toNat (w : Word) : (rtOf w).toNat = w.toNat / 2 ^ 16 % 2 ^ 5 := by
  simp [rtOf, BitVec.extractLsb'_toNat, Nat.shiftRight_eq_div_pow]
theorem rdOf_toNat (w : Word) : (rdOf w).toNat = w.toNat / 2 ^ 11 % 2 ^ 5 := by
  simp [rdOf, BitVec.extractLsb'_toNat, Nat.shiftRight_eq_div_pow]
theorem saOf_toNat (w : Word) : (saOf w).toNat = w.toNat / 2 ^ 6 % 2 ^ 5 := by
  simp [saOf, BitVec.extractLsb'_toNat, Nat.shiftRight_eq_div_pow]
theorem functOf_toNat (w : Word) : (functOf w).toNat = w.toNat % 2 ^ 6 := by
  simp [functOf, BitVec.extractLsb'_toNat]
theorem immOf_toNat (w : Word) : (immOf w).toNat = w.toNat % 2 ^ 16 := by
  simp [immOf, BitVec.extractLsb'_toNat]
theorem indexOf_toNat (w : Word) : (indexOf w).toNat = w.toNat % 2 ^ 26 := by
  simp [indexOf, BitVec.extractLsb'_toNat]

/-! ## Fields of a laid-out word -/

section
variable (op : BitVec 6) (rs rt rd : RegNum) (sa : BitVec 5) (f : BitVec 6) (imm : BitVec 16) (index : BitVec 26)

@[simp] theorem opcodeOf_rType : opcodeOf (rType op rs rt rd sa f) = op := by
  apply BitVec.eq_of_toNat_eq; rw [opcodeOf_toNat, rType_toNat]; omega
@[simp] theorem rsOf_rType : rsOf (rType op rs rt rd sa f) = rs := by
  apply BitVec.eq_of_toNat_eq; rw [rsOf_toNat, rType_toNat]; omega
@[simp] theorem rtOf_rType : rtOf (rType op rs rt rd sa f) = rt := by
  apply BitVec.eq_of_toNat_eq; rw [rtOf_toNat, rType_toNat]; omega
@[simp] theorem rdOf_rType : rdOf (rType op rs rt rd sa f) = rd := by
  apply BitVec.eq_of_toNat_eq; rw [rdOf_toNat, rType_toNat]; omega
@[simp] theorem saOf_rType : saOf (rType op rs rt rd sa f) = sa := by
  apply BitVec.eq_of_toNat_eq; rw [saOf_toNat, rType_toNat]; omega
@[simp] theorem functOf_rType : functOf (rType op rs rt rd sa f) = f := by
  apply BitVec.eq_of_toNat_eq; rw [functOf_toNat, rType_toNat]; omega

@[simp] theorem opcodeOf_iType : opcodeOf (iType op rs rt imm) = op := by
  apply BitVec.eq_of_toNat_eq; rw [opcodeOf_toNat, iType_toNat]; omega
@[simp] theorem rsOf_iType : rsOf (iType op rs rt imm) = rs := by
  apply BitVec.eq_of_toNat_eq; rw [rsOf_toNat, iType_toNat]; omega
@[simp] theorem rtOf_iType : rtOf (iType op rs rt imm) = rt := by
  apply BitVec.eq_of_toNat_eq; rw [rtOf_toNat, iType_toNat]; omega
@[simp] theorem immOf_iType : immOf (iType op rs rt imm) = imm := by
  apply BitVec.eq_of_toNat_eq; rw [immOf_toNat, iType_toNat]; omega

@[simp] theorem opcodeOf_jType : opcodeOf (jType op index) = op := by
  apply BitVec.eq_of_toNat_eq; rw [opcodeOf_toNat, jType_toNat]; omega
@[simp] theorem indexOf_jType : indexOf (jType op index) = index := by
  apply BitVec.eq_of_toNat_eq; rw [indexOf_toNat, jType_toNat]; omega
end

/-! ## Every word is the layout of its fields -/

theorem rType_fields (w : Word) : rType (opcodeOf w) (rsOf w) (rtOf w) (rdOf w) (saOf w) (functOf w) = w := by
  apply BitVec.eq_of_toNat_eq
  rw [rType_toNat, opcodeOf_toNat, rsOf_toNat, rtOf_toNat, rdOf_toNat, saOf_toNat, functOf_toNat]
  omega

theorem iType_fields (w : Word) : iType (opcodeOf w) (rsOf w) (rtOf w) (immOf w) = w := by
  apply BitVec.eq_of_toNat_eq
  rw [iType_toNat, opcodeOf_toNat, rsOf_toNat, rtOf_toNat, immOf_toNat]
  omega

theorem jType_fields (w : Word) : jType (opcodeOf w) (indexOf w) = w := by
  apply BitVec.eq_of_toNat_eq
  rw [jType_toNat, opcodeOf_toNat, indexOf_toNat]
  omega

/-- The bytes of a word, put together again, are the word (R31). -/
theorem wordOfBytes_bytes (w : Word) : wordOfBytes (byteOf w 0) (byteOf w 1) (byteOf w 2) (byteOf w 3) = w := by
  apply BitVec.eq_of_toNat_eq
  rw [wordOfBytes_toNat, byteOf_toNat, byteOf_toNat, byteOf_toNat, byteOf_toNat]
  omega

/-! ## Layouts are compared, and masked, field by field -/

theorem rType_inj {op op' : BitVec 6} {rs rs' rt rt' rd rd' : RegNum} {sa sa' : BitVec 5} {f f' : BitVec 6} :
    rType op rs rt rd sa f = rType op' rs' rt' rd' sa' f' ↔
      op = op' ∧ rs = rs' ∧ rt = rt' ∧ rd = rd' ∧ sa = sa' ∧ f = f' := by
  constructor
  · intro h
    refine ⟨?_, ?_, ?_, ?_, ?_, ?_⟩
    · simpa using congrArg opcodeOf h
    · simpa using congrArg rsOf h
    · simpa using congrArg rtOf h
    · simpa using congrArg rdOf h
    · simpa using congrArg saOf h
    · simpa using congrArg functOf h
  · rintro ⟨rfl, rfl, rfl, rfl, rfl, rfl⟩; rfl

theorem rType_and (op op' : BitVec 6) (rs rs' rt rt' rd rd' : RegNum) (sa sa' : BitVec 5) (f f' : BitVec 6) :
    rType op rs rt rd sa f &&& rType op' rs' rt' rd' sa' f' =
      rType (op &&& op') (rs &&& rs') (rt &&& rt') (rd &&& rd') (sa &&& sa') (f &&& f') := by
  have h1 := BitVec.and_append (x₁ := op ++ rs ++ rt ++ rd ++ sa) (y₁ := f) (x₂ := op' ++ rs' ++ rt' ++ rd' ++ sa') (y₂ := f')
  have h2 := BitVec.and_append (x₁ := op ++ rs ++ rt ++ rd) (y₁ := sa) (x₂ := op' ++ rs' ++ rt' ++ rd') (y₂ := sa')
  have h3 := BitVec.and_append (x₁ := op ++ rs ++ rt) (y₁ := rd) (x₂ := op' ++ rs' ++ rt') (y₂ := rd')
  have h4 := BitVec.and_append (x₁ := op ++ rs) (y₁ := rt) (x₂ := op' ++ rs') (y₂ := rt')
  have h5 := BitVec.and_append (x₁ := op) (y₁ := rs) (x₂ := op') (y₂ := rs')
  rw [h5] at h4; rw [h4] at h3; rw [h3] at h2; rw [h2] at h1
  exact h1

/-- A row's test, field by field: `bits` and `mask` given by their own fields (R72). -/
theorem matches_iff (r : OpcodeRow) (w : Word) :
    r.matches w = true ↔
      opcodeOf w &&& opcodeOf r.mask = opcodeOf r.bits ∧ rsOf w &&& rsOf r.mask = rsOf r.bits ∧
      rtOf w &&& rtOf r.mask = rtOf r.bits ∧ rdOf w &&& rdOf r.mask = rdOf r.bits ∧
      saOf w &&& saOf r.mask = saOf r.bits ∧ functOf w &&& functOf r.mask = functOf r.bits := by
  rw [OpcodeRow.matches, beq_iff_eq]
  conv_lhs => rw [← rType_fields w, ← rType_fields r.mask, ← rType_fields r.bits, rType_and, rType_inj]

end Sys2Proof
end

