-- ==== Sys2Proof/Laws/Memory.lean ====
section
/-! SUPPORT. The laws of physical memory: a written byte is read back, every other byte is as before (with no premise on
the list), words are little-endian (R31), and every operation keeps the canonical form. -/

namespace Sys2Proof.Machine

/-! ## Read after write -/

theorem Memory.read_erase_same (m : Memory) (a : Nat) : (m.erase a).read a = Memory.unlisted := by
  induction m with
  | nil => rfl
  | cons c m ih =>
    obtain ⟨k, v⟩ := c
    by_cases h : k = a
    · simpa [Memory.erase, h] using ih
    · simpa [Memory.erase, Memory.read, h] using ih

theorem Memory.read_erase_other (m : Memory) {a x : Nat} (hx : x ≠ a) : (m.erase a).read x = m.read x := by
  induction m with
  | nil => rfl
  | cons c m ih =>
    obtain ⟨k, v⟩ := c
    by_cases h : k = a
    · have hk : k ≠ x := fun e => hx (e ▸ h)
      simpa [Memory.erase, Memory.read, h, hk, Ne.symm hx] using ih
    · by_cases hk : k = x
      · simp [Memory.erase, Memory.read, hk, hx]
      · simpa [Memory.erase, Memory.read, h, hk] using ih

theorem Memory.read_insert_other (m : Memory) {a x : Nat} (b : Byte) (hx : x ≠ a) :
    (m.insert a b).read x = m.read x := by
  induction m with
  | nil => simp [Memory.insert, Memory.read, Ne.symm hx]
  | cons c m ih =>
    obtain ⟨k, v⟩ := c
    by_cases h : a < k
    · simp [Memory.insert, Memory.read, h, Ne.symm hx]
    · simp [Memory.insert, Memory.read, h, ih]

theorem Memory.read_insert_same (m : Memory) {a : Nat} (b : Byte) (hm : ∀ c ∈ m, c.1 ≠ a) :
    (m.insert a b).read a = b := by
  induction m with
  | nil => simp [Memory.insert, Memory.read]
  | cons c m ih =>
    obtain ⟨k, v⟩ := c
    by_cases h : a < k
    · simp [Memory.insert, Memory.read, h]
    · have hk : k ≠ a := hm (k, v) (List.mem_cons_self ..)
      simpa [Memory.insert, Memory.read, h, hk] using ih fun c hc => hm c (List.mem_cons_of_mem _ hc)

theorem Memory.erase_no_key (m : Memory) (a : Nat) : ∀ c ∈ m.erase a, c.1 ≠ a := by
  intro c hc
  simpa using (List.mem_filter.1 hc).2

theorem Memory.read_write_same (m : Memory) (a : Nat) (b : Byte) : (m.write a b).read a = b := by
  by_cases h : b = Memory.unlisted
  · simp [Memory.write, h, Memory.read_erase_same]
  · simp [Memory.write, h, Memory.read_insert_same _ b (m.erase_no_key a)]

theorem Memory.read_write_other (m : Memory) {a x : Nat} (b : Byte) (hx : x ≠ a) : (m.write a b).read x = m.read x := by
  by_cases h : b = Memory.unlisted
  · simp [Memory.write, h, Memory.read_erase_other m hx]
  · simp [Memory.write, h, Memory.read_insert_other _ b hx, Memory.read_erase_other m hx]

/-- One equation for both cases. -/
theorem Memory.read_write (m : Memory) (a x : Nat) (b : Byte) : (m.write a b).read x = if x = a then b else m.read x := by
  split
  · subst_vars; exact m.read_write_same _ b
  · exact m.read_write_other b ‹_›

/-! ## Words (R31) -/

theorem Memory.read_writeWord (m : Memory) (a x : Nat) (w : Word) :
    (m.writeWord a w).read x =
      if x = a + 3 then byteOf w 3 else if x = a + 2 then byteOf w 2
      else if x = a + 1 then byteOf w 1 else if x = a then byteOf w 0 else m.read x := by
  simp only [Memory.writeWord, Memory.read_write]

theorem Memory.read_writeWord_other (m : Memory) {a x : Nat} (w : Word) (hx : x < a ∨ a + 4 ≤ x) :
    (m.writeWord a w).read x = m.read x := by
  rw [Memory.read_writeWord]
  repeat rw [if_neg (by omega)]

theorem Memory.readWord_writeWord (m : Memory) (a : Nat) (w : Word) : (m.writeWord a w).readWord a = w := by
  simp [Memory.readWord, Memory.read_writeWord, wordOfBytes_bytes]

/-! ## The canonical form -/

theorem Memory.wfFrom_mono {lo lo' : Nat} (h : lo' ≤ lo) {m : Memory} (hm : m.wfFrom lo) : m.wfFrom lo' := by
  cases m with
  | nil => rfl
  | cons c m =>
    obtain ⟨k, v⟩ := c
    simp only [Memory.wfFrom, Bool.and_eq_true, decide_eq_true_eq] at hm ⊢
    exact ⟨⟨⟨by omega, hm.1.1.2⟩, hm.1.2⟩, hm.2⟩

theorem Memory.wfFrom_erase {lo : Nat} {m : Memory} (a : Nat) (hm : m.wfFrom lo) : (m.erase a).wfFrom lo := by
  induction m generalizing lo with
  | nil => rfl
  | cons c m ih =>
    obtain ⟨k, v⟩ := c
    simp only [Memory.wfFrom, Bool.and_eq_true, decide_eq_true_eq] at hm
    by_cases h : k = a
    · have : Memory.wfFrom lo m := Memory.wfFrom_mono (by omega) hm.2
      simpa [Memory.erase, h] using ih this
    · have := ih hm.2
      simp only [Memory.erase] at this
      simp [Memory.erase, Memory.wfFrom, h, hm.1.1.1, hm.1.1.2, this]
      simpa using hm.1.2

theorem Memory.wfFrom_insert {lo a : Nat} {b : Byte} {m : Memory} (hlo : lo ≤ a) (ha : a < 2 ^ Config.paBits)
    (hb : b ≠ Memory.unlisted) (hm : m.wfFrom lo) (hk : ∀ c ∈ m, c.1 ≠ a) : (m.insert a b).wfFrom lo := by
  induction m generalizing lo with
  | nil => simp [Memory.insert, Memory.wfFrom, hlo, ha, hb]
  | cons c m ih =>
    obtain ⟨k, v⟩ := c
    have hka : k ≠ a := hk (k, v) (List.mem_cons_self ..)
    simp only [Memory.wfFrom, Bool.and_eq_true, decide_eq_true_eq] at hm
    by_cases h : a < k
    · simp [Memory.insert, Memory.wfFrom, h, hlo, ha, hb, hm.1.1.2, hm.2]
      simpa using hm.1.2
    · have := ih (by omega) hm.2 fun c hc => hk c (List.mem_cons_of_mem _ hc)
      simp [Memory.insert, Memory.wfFrom, h, hm.1.1.1, hm.1.1.2, this]
      simpa using hm.1.2

/-- Writing a byte of the physical space keeps the canonical form. -/
theorem Memory.wf_write {m : Memory} {a : Nat} (b : Byte) (ha : a < 2 ^ Config.paBits) (hm : m.wf) : (m.write a b).wf := by
  by_cases h : b = Memory.unlisted
  · simpa [Memory.write, Memory.wf, h] using Memory.wfFrom_erase a hm
  · simpa [Memory.write, Memory.wf, h] using
      Memory.wfFrom_insert (Nat.zero_le a) ha h (Memory.wfFrom_erase a hm) (m.erase_no_key a)

/-- Writing a word of the physical space keeps the canonical form. -/
theorem Memory.wf_writeWord {m : Memory} {a : Nat} (w : Word) (ha : a + 3 < 2 ^ Config.paBits) (hm : m.wf) :
    (m.writeWord a w).wf := by
  refine Memory.wf_write _ ha (Memory.wf_write _ ?_ (Memory.wf_write _ ?_ (Memory.wf_write _ ?_ hm))) <;> omega

/-- Nothing stands below the first address of a canonical list. -/
theorem Memory.read_below {lo a : Nat} {m : Memory} (h : a < lo) (hm : m.wfFrom lo) : m.read a = Memory.unlisted := by
  induction m generalizing lo with
  | nil => rfl
  | cons c m ih =>
    obtain ⟨k, v⟩ := c
    simp only [Memory.wfFrom, Bool.and_eq_true, decide_eq_true_eq] at hm
    have hk : k ≠ a := by omega
    simpa [Memory.read, hk] using ih (by omega) hm.2

end Sys2Proof.Machine
end

