-- ==== Sys2Proof/Laws/State.lean ====
section
/-! SUPPORT. The fields of the state under each of its updates: one lemma per field per update, so that no later proof
unfolds a record update. -/

namespace Sys2Proof.Machine
variable (s : State)

/-! ## `State.setReg` -/

@[simp] theorem State.setReg_cfg (r : RegNum) (v : Word) : (s.setReg r v).cfg = s.cfg := rfl
@[simp] theorem State.setReg_gpr (r : RegNum) (v : Word) : (s.setReg r v).gpr = s.gpr.write r v := rfl
@[simp] theorem State.setReg_pc (r : RegNum) (v : Word) : (s.setReg r v).pc = s.pc := rfl
@[simp] theorem State.setReg_pending (r : RegNum) (v : Word) : (s.setReg r v).pending = s.pending := rfl
@[simp] theorem State.setReg_mem (r : RegNum) (v : Word) : (s.setReg r v).mem = s.mem := rfl
@[simp] theorem State.setReg_status (r : RegNum) (v : Word) : (s.setReg r v).status = s.status := rfl
@[simp] theorem State.setReg_draws (r : RegNum) (v : Word) : (s.setReg r v).draws = s.draws := rfl
@[simp] theorem State.setReg_outputs (r : RegNum) (v : Word) : (s.setReg r v).outputs = s.outputs := rfl

/-! ## `State.raised` -/

@[simp] theorem State.raised_cfg (c : Cause) : (s.raised c).cfg = s.cfg := rfl
@[simp] theorem State.raised_gpr (c : Cause) : (s.raised c).gpr = s.gpr := rfl
@[simp] theorem State.raised_pc (c : Cause) : (s.raised c).pc = s.pc := rfl
@[simp] theorem State.raised_pending (c : Cause) : (s.raised c).pending = s.pending := rfl
@[simp] theorem State.raised_mem (c : Cause) : (s.raised c).mem = s.mem := rfl
@[simp] theorem State.raised_status (c : Cause) : (s.raised c).status = .fault c := rfl
@[simp] theorem State.raised_draws (c : Cause) : (s.raised c).draws = s.draws := rfl
@[simp] theorem State.raised_outputs (c : Cause) : (s.raised c).outputs = s.outputs := rfl
@[simp] theorem State.raised_reg (c : Cause) (q : RegNum) : (s.raised c).reg q = s.reg q := rfl

/-! ## `State.advance` -/

@[simp] theorem State.advance_cfg : s.advance.cfg = s.cfg := rfl
@[simp] theorem State.advance_gpr : s.advance.gpr = s.gpr := rfl
@[simp] theorem State.advance_pc : s.advance.pc = s.pending.getD (s.pc + 4) := rfl
@[simp] theorem State.advance_pending : s.advance.pending = none := rfl
@[simp] theorem State.advance_mem : s.advance.mem = s.mem := rfl
@[simp] theorem State.advance_status : s.advance.status = s.status := rfl
@[simp] theorem State.advance_draws : s.advance.draws = s.draws := rfl
@[simp] theorem State.advance_outputs : s.advance.outputs = s.outputs := rfl
@[simp] theorem State.advance_reg (q : RegNum) : s.advance.reg q = s.reg q := rfl

/-! ## `State.delayed` -/

@[simp] theorem State.delayed_cfg (t : Word) : (s.delayed t).cfg = s.cfg := rfl
@[simp] theorem State.delayed_gpr (t : Word) : (s.delayed t).gpr = s.gpr := rfl
@[simp] theorem State.delayed_pc (t : Word) : (s.delayed t).pc = s.pc + 4 := rfl
@[simp] theorem State.delayed_pending (t : Word) : (s.delayed t).pending = some t := rfl
@[simp] theorem State.delayed_mem (t : Word) : (s.delayed t).mem = s.mem := rfl
@[simp] theorem State.delayed_status (t : Word) : (s.delayed t).status = s.status := rfl
@[simp] theorem State.delayed_draws (t : Word) : (s.delayed t).draws = s.draws := rfl
@[simp] theorem State.delayed_outputs (t : Word) : (s.delayed t).outputs = s.outputs := rfl
@[simp] theorem State.delayed_reg (t : Word) (q : RegNum) : (s.delayed t).reg q = s.reg q := rfl

/-! ## `State.setMem` -/

@[simp] theorem State.setMem_cfg (m : Memory) : (s.setMem m).cfg = s.cfg := rfl
@[simp] theorem State.setMem_gpr (m : Memory) : (s.setMem m).gpr = s.gpr := rfl
@[simp] theorem State.setMem_pc (m : Memory) : (s.setMem m).pc = s.pc := rfl
@[simp] theorem State.setMem_pending (m : Memory) : (s.setMem m).pending = s.pending := rfl
@[simp] theorem State.setMem_mem (m : Memory) : (s.setMem m).mem = m := rfl
@[simp] theorem State.setMem_status (m : Memory) : (s.setMem m).status = s.status := rfl
@[simp] theorem State.setMem_draws (m : Memory) : (s.setMem m).draws = s.draws := rfl
@[simp] theorem State.setMem_outputs (m : Memory) : (s.setMem m).outputs = s.outputs := rfl
@[simp] theorem State.setMem_reg (m : Memory) (q : RegNum) : (s.setMem m).reg q = s.reg q := rfl

/-! ## `State.drawn` -/

@[simp] theorem State.drawn_cfg : s.drawn.cfg = s.cfg := rfl
@[simp] theorem State.drawn_gpr : s.drawn.gpr = s.gpr := rfl
@[simp] theorem State.drawn_pc : s.drawn.pc = s.pc := rfl
@[simp] theorem State.drawn_pending : s.drawn.pending = s.pending := rfl
@[simp] theorem State.drawn_mem : s.drawn.mem = s.mem := rfl
@[simp] theorem State.drawn_status : s.drawn.status = s.status := rfl
@[simp] theorem State.drawn_draws : s.drawn.draws = s.draws + 1 := rfl
@[simp] theorem State.drawn_outputs : s.drawn.outputs = s.outputs := rfl
@[simp] theorem State.drawn_reg (q : RegNum) : s.drawn.reg q = s.reg q := rfl

/-! ## `State.emit` -/

@[simp] theorem State.emit_cfg (o : DeviceWrite) : (s.emit o).cfg = s.cfg := rfl
@[simp] theorem State.emit_gpr (o : DeviceWrite) : (s.emit o).gpr = s.gpr := rfl
@[simp] theorem State.emit_pc (o : DeviceWrite) : (s.emit o).pc = s.pc := rfl
@[simp] theorem State.emit_pending (o : DeviceWrite) : (s.emit o).pending = s.pending := rfl
@[simp] theorem State.emit_mem (o : DeviceWrite) : (s.emit o).mem = s.mem := rfl
@[simp] theorem State.emit_status (o : DeviceWrite) : (s.emit o).status = s.status := rfl
@[simp] theorem State.emit_draws (o : DeviceWrite) : (s.emit o).draws = s.draws := rfl
@[simp] theorem State.emit_outputs (o : DeviceWrite) : (s.emit o).outputs = s.outputs ++ [o] := rfl
@[simp] theorem State.emit_reg (o : DeviceWrite) (q : RegNum) : (s.emit o).reg q = s.reg q := rfl

/-! ## Reset (R242) -/

@[simp] theorem State.reset_pending : State.reset.pending = none := rfl
@[simp] theorem State.reset_status : State.reset.status = .running := rfl
@[simp] theorem State.reset_mem : State.reset.mem = [] := rfl
@[simp] theorem State.reset_cfg : State.reset.cfg = Config.default := rfl

end Sys2Proof.Machine
end

