-- ==== Sys2Proof/Laws/Values.lean ====
section
/-! SUPPORT. What operand forms and the overflow test are as numbers (R65 to R70, R101): one lemma per function. -/

namespace Sys2Proof.Machine

/-! ## Operands -/

theorem sextImm_toInt (imm : BitVec 16) : (sextImm imm).toInt = imm.toInt :=
  BitVec.toInt_signExtend_of_le (by decide)

theorem zextImm_toNat (imm : BitVec 16) : (zextImm imm).toNat = imm.toNat := by
  have := imm.isLt
  simp only [zextImm, BitVec.toNat_setWidth]
  omega

theorem upperImm_toNat (imm : BitVec 16) : (upperImm imm).toNat = imm.toNat * 2 ^ 16 := by
  simpa [upperImm] using toNat_append_eq imm (0 : BitVec 16)

theorem branchOffset_toInt (offset : BitVec 16) : (branchOffset offset).toInt = 4 * offset.toInt := by
  have h := toNat_append_eq offset (0 : BitVec 2)
  rw [branchOffset, BitVec.toInt_signExtend_of_le (by decide), BitVec.toInt_eq_toNat_cond,
    BitVec.toInt_eq_toNat_cond, h]
  simp
  split <;> split <;> omega

theorem branchTarget_eq (a : Word) (offset : BitVec 16) :
    branchTarget a offset = BitVec.ofInt 32 (a.toNat + 4 + 4 * offset.toInt) := by
  rw [branchTarget, ← BitVec.ofInt_toInt (x := branchOffset offset), branchOffset_toInt, BitVec.ofInt_add,
    BitVec.ofInt_add]
  simp

theorem jumpTarget_toNat (a : Word) (index : BitVec 26) :
    (jumpTarget a index).toNat = (a + 4).toNat / 2 ^ 28 * 2 ^ 28 + 4 * index.toNat := by
  have h1 : (jumpTarget a index).toNat = _ :=
    toNat_append_eq ((a + 4).extractLsb' 28 4 ++ index) (0 : BitVec 2)
  have h2 := toNat_append_eq ((a + 4).extractLsb' 28 4) index
  have h3 : ((a + 4).extractLsb' 28 4).toNat = (a + 4).toNat / 2 ^ 28 % 2 ^ 4 := by
    rw [BitVec.extractLsb'_toNat, Nat.shiftRight_eq_div_pow]
  have := (a + 4).isLt
  rw [h1, h2, h3]
  simp only [BitVec.ofNat_eq_ofNat, BitVec.toNat_ofNat]
  omega

theorem shiftAmount_toNat (x : Word) : (shiftAmount x).toNat = x.toNat % 32 := by
  simp [shiftAmount, BitVec.extractLsb'_toNat]

theorem effectiveAddr_eq (base : Word) (offset : BitVec 16) : effectiveAddr base offset = base + sextImm offset := rfl

theorem wordAligned_iff (a : Word) : wordAligned a = true ↔ a.toNat % 4 = 0 := by
  rw [wordAligned, beq_iff_eq, ← BitVec.toNat_inj, BitVec.extractLsb'_toNat]
  simp

theorem wordAligned_eq_false_iff (a : Word) : wordAligned a = false ↔ a.toNat % 4 ≠ 0 := by
  rw [ne_eq, ← wordAligned_iff, Bool.not_eq_true]

theorem geZero_iff (x : Word) : geZero x = true ↔ 0 ≤ x.toInt := by
  simp [geZero, BitVec.msb_eq_toInt]

theorem ltZero_iff (x : Word) : ltZero x = true ↔ x.toInt < 0 := by
  simp [ltZero, BitVec.msb_eq_toInt]

theorem gtZero_iff (x : Word) : gtZero x = true ↔ 0 < x.toInt := by
  have : x = 0 ↔ x.toInt = 0 := by rw [← BitVec.toInt_inj]; simp
  simp only [gtZero, BitVec.msb_eq_toInt, Bool.and_eq_true, bne_iff_ne, ne_eq, this, Bool.not_eq_true',
    decide_eq_false_iff_not]
  omega

theorem leZero_iff (x : Word) : leZero x = true ↔ x.toInt ≤ 0 := by
  have : x = 0 ↔ x.toInt = 0 := by rw [← BitVec.toInt_inj]; simp
  simp only [leZero, BitVec.msb_eq_toInt, Bool.or_eq_true, beq_iff_eq, this, decide_eq_true_eq]
  omega

/-! ## Assembly operands (R79, R81) -/

theorem signed16_toInt (x : BitVec 16) : signed16 x.toInt = some x := by
  have := x.le_toInt
  have := x.toInt_lt
  rw [signed16, if_pos (by omega), BitVec.ofInt_toInt]

theorem unsigned16_toNat (x : BitVec 16) : unsigned16 x.toNat = some x := by
  have := x.isLt
  rw [unsigned16, if_pos (by omega), BitVec.ofInt_natCast, BitVec.ofNat_toNat, BitVec.setWidth_eq]

theorem shift5_toNat (x : BitVec 5) : shift5 x.toNat = some x := by
  have := x.isLt
  rw [shift5, if_pos (by omega), BitVec.ofInt_natCast, BitVec.ofNat_toNat, BitVec.setWidth_eq]

/-- Everything `signed16` can answer. -/
theorem signed16_eq_some_iff {v : Int} {x : BitVec 16} : signed16 v = some x ↔ v = x.toInt := by
  refine ⟨fun h => ?_, fun h => h ▸ signed16_toInt x⟩
  unfold signed16 at h
  split at h
  · obtain rfl := Option.some.inj h
    rw [BitVec.toInt_ofInt, Int.bmod_eq_of_le] <;> omega
  · cases h

/-- Everything `unsigned16` can answer. -/
theorem unsigned16_eq_some_iff {v : Int} {x : BitVec 16} : unsigned16 v = some x ↔ v = x.toNat := by
  refine ⟨fun h => ?_, fun h => h ▸ unsigned16_toNat x⟩
  unfold unsigned16 at h
  split at h
  · obtain rfl := Option.some.inj h
    rw [BitVec.toNat_ofInt]
    omega
  · cases h

/-- Everything `shift5` can answer. -/
theorem shift5_eq_some_iff {v : Int} {x : BitVec 5} : shift5 v = some x ↔ v = x.toNat := by
  refine ⟨fun h => ?_, fun h => h ▸ shift5_toNat x⟩
  unfold shift5 at h
  split at h
  · obtain rfl := Option.some.inj h
    rw [BitVec.toNat_ofInt]
    omega
  · cases h

theorem indexOfTarget_toNat (a : Word) : (indexOfTarget a).toNat = a.toNat / 4 % 2 ^ 26 := by
  rw [indexOfTarget, BitVec.extractLsb'_toNat, Nat.shiftRight_eq_div_pow]

/-! ## The 33-bit sums (R101) -/

theorem sext33_toInt (a : Word) : (sext33 a).toInt = a.toInt := BitVec.toInt_signExtend_of_le (by decide)

theorem sext33Imm_toInt (imm : BitVec 16) : (sext33Imm imm).toInt = imm.toInt :=
  BitVec.toInt_signExtend_of_le (by decide)

theorem word_toInt_bounds (a : Word) : -2 ^ 31 ≤ a.toInt ∧ a.toInt < 2 ^ 31 := ⟨BitVec.le_toInt a, BitVec.toInt_lt⟩

theorem imm_toInt_bounds (imm : BitVec 16) : -2 ^ 15 ≤ imm.toInt ∧ imm.toInt < 2 ^ 15 :=
  ⟨BitVec.le_toInt imm, BitVec.toInt_lt⟩

/-- A 33-bit sum of two widened words is exact. -/
theorem sext33_add_toInt (a b : Word) : (sext33 a + sext33 b).toInt = a.toInt + b.toInt := by
  have := word_toInt_bounds a
  have := word_toInt_bounds b
  rw [BitVec.toInt_add, sext33_toInt, sext33_toInt, Int.bmod_eq_of_le] <;> omega

/-- A 33-bit sum of a widened word and a widened immediate is exact. -/
theorem sext33_addImm_toInt (a : Word) (imm : BitVec 16) : (sext33 a + sext33Imm imm).toInt = a.toInt + imm.toInt := by
  have := word_toInt_bounds a
  have := imm_toInt_bounds imm
  rw [BitVec.toInt_add, sext33_toInt, sext33Imm_toInt, Int.bmod_eq_of_le] <;> omega

/-- A 33-bit difference of two widened words is exact. -/
theorem sext33_sub_toInt (a b : Word) : (sext33 a - sext33 b).toInt = a.toInt - b.toInt := by
  have := word_toInt_bounds a
  have := word_toInt_bounds b
  rw [BitVec.toInt_sub, sext33_toInt, sext33_toInt, Int.bmod_eq_of_le] <;> omega

/-- Bits 32 and 31 differ when the 33-bit value is outside the 32-bit signed range. -/
theorem overflows_iff (tmp : BitVec 33) : overflows tmp = true ↔ tmp.toInt < -2 ^ 31 ∨ 2 ^ 31 - 1 < tmp.toInt := by
  have h := tmp.isLt
  rw [overflows, bne_iff_ne, ne_eq, BitVec.getLsbD, BitVec.getLsbD, Nat.testBit_eq_decide_div_mod_eq,
    Nat.testBit_eq_decide_div_mod_eq, BitVec.toInt_eq_toNat_cond]
  by_cases h1 : tmp.toNat / 2 ^ 32 % 2 = 1 <;> by_cases h2 : tmp.toNat / 2 ^ 31 % 2 = 1 <;> simp [*] <;> split <;> omega

/-- The low 32 bits stand for the 33-bit value modulo 2^32. -/
theorem low32_eq (tmp : BitVec 33) : low32 tmp = BitVec.ofInt 32 tmp.toInt := by
  apply BitVec.eq_of_toNat_eq
  rw [low32, BitVec.toNat_setWidth, BitVec.toNat_ofInt, BitVec.toInt_eq_toNat_cond]
  have := tmp.isLt
  split <;> omega

end Sys2Proof.Machine
end

