-- ==== Sys2Proof/Laws/Access.lean ====
section
/-! SUPPORT. The access primitives, each by one lemma that says everything it can do (R36, R37, R39, R45, R49). -/

namespace Sys2Proof.Machine

/-- A legal segment, as numbers (R41, R44). -/
theorem segment_wellFormed_iff (g : Segment) :
    g.wellFormed = true ↔
      0 < g.size ∧ g.pbase + g.size ≤ 2 ^ 32 ∧ g.vbase % 4 = 0 ∧ g.size % 4 = 0 ∧ g.pbase % 4 = 0 := by
  simp only [Segment.wellFormed, Bool.and_eq_true, decide_eq_true_eq, beq_iff_eq, and_assoc]
  exact Iff.rfl

@[simp] theorem translate_fst (c : Config) (va : Word) (k : AccessKind) (d : AccessDir) :
    (translate c va k d).1 = physAddr c va := rfl

/-- Where something stands, the address is a physical address (R44). -/
theorem regionOf_lt {c : Config} {pa : Nat} (h : regionOf c pa ≠ .nothing) : pa < 2 ^ Config.paBits := by
  by_contra hn
  exact h (if_neg hn)

/-- Under the default `PHYSMAP` every physical address is RAM (R45). -/
theorem regionOf_default {pa : Nat} (h : pa < 2 ^ Config.paBits) : regionOf Config.default pa = .ram := if_pos h

theorem allBytes_iff {n pa : Nat} {p : Nat → Bool} : allBytes n pa p = true ↔ ∀ k < n, p (pa + k) = true := by
  simp [allBytes]

theorem not_allBytes_iff {n pa : Nat} {p : Nat → Bool} : ¬ allBytes n pa p = true ↔ ∃ k < n, p (pa + k) = false := by
  simp [allBytes]

/-! ## Checks -/

theorem loadCheck_none_iff {c : Config} {va : Word} {n : Nat} :
    loadCheck c va n = none ↔ ∀ k < n, regionOf c (physAddr c va + k) ≠ .nothing := by
  simp [loadCheck, allBytes_iff]

theorem loadCheck_some_iff {c : Config} {va : Word} {n : Nat} {e : Cause} :
    loadCheck c va n = some e ↔ e = .unmapped .load va ∧ ∃ k < n, regionOf c (physAddr c va + k) = .nothing := by
  by_cases h : allBytes n (physAddr c va) (regionOf c · != .nothing) = true
  · have := allBytes_iff.1 h
    simp only [loadCheck, translate_fst, h, if_true]
    constructor
    · rintro ⟨⟩
    · rintro ⟨_, k, hk, hn⟩
      simpa [hn] using this k hk
  · obtain ⟨k, hk, hn⟩ := not_allBytes_iff.1 h
    simp only [loadCheck, translate_fst, h, Bool.false_eq_true, if_false, Option.some.injEq]
    exact ⟨fun e => ⟨e.symm, k, hk, by simpa using hn⟩, fun e => e.1.symm⟩

theorem storeCheck_none_iff {c : Config} {va : Word} {n : Nat} :
    storeCheck c va n = none ↔
      (∀ k < n, regionOf c (physAddr c va + k) ≠ .nothing) ∧ ∀ k < n, inText c (physAddr c va + k) = false := by
  by_cases h : allBytes n (physAddr c va) (regionOf c · != .nothing) = true
  · have h' := allBytes_iff.1 h
    by_cases ht : allBytes n (physAddr c va) (!inText c ·) = true
    · have ht' := allBytes_iff.1 ht
      simp only [storeCheck, translate_fst, h, ht, if_true, true_iff]
      exact ⟨fun k hk => by simpa using h' k hk, fun k hk => by simpa using ht' k hk⟩
    · obtain ⟨k, hk, hn⟩ := not_allBytes_iff.1 ht
      simp only [storeCheck, translate_fst, h, ht, if_true, Bool.false_eq_true, if_false, reduceCtorEq, false_iff]
      exact fun e => by simp [e.2 k hk] at hn
  · obtain ⟨k, hk, hn⟩ := not_allBytes_iff.1 h
    simp only [storeCheck, translate_fst, h, Bool.false_eq_true, if_false, reduceCtorEq, false_iff]
    exact fun e => by simp [e.1 k hk] at hn

theorem storeCheck_unmapped {c : Config} {va : Word} {n : Nat}
    (h : ∃ k < n, regionOf c (physAddr c va + k) = .nothing) : storeCheck c va n = some (.unmapped .store va) := by
  have hn : ¬ allBytes n (physAddr c va) (regionOf c · != .nothing) = true :=
    not_allBytes_iff.2 (by simpa using h)
  rw [storeCheck, translate_fst, if_neg hn]

theorem storeCheck_text {c : Config} {va : Word} {n : Nat} (h : ∀ k < n, regionOf c (physAddr c va + k) ≠ .nothing)
    (ht : ∃ k < n, inText c (physAddr c va + k) = true) : storeCheck c va n = some (.storeToText va) := by
  have h' : allBytes n (physAddr c va) (regionOf c · != .nothing) = true := allBytes_iff.2 (by simpa using h)
  have hn : ¬ allBytes n (physAddr c va) (!inText c ·) = true := not_allBytes_iff.2 (by simpa using ht)
  rw [storeCheck, translate_fst, if_pos h', if_neg hn]

/-- The two causes a store's checks can answer. -/
theorem storeCheck_cause {c : Config} {va : Word} {n : Nat} {e : Cause} (h : storeCheck c va n = some e) :
    e = .unmapped .store va ∨ e = .storeToText va := by
  unfold storeCheck at h
  split at h
  · split at h
    · cases h
    · exact .inr (by simpa using h.symm)
  · exact .inl (by simpa using h.symm)

/-! ## MemRead and MemWrite -/

/-- Everything `MemRead(vaddr, 1)` can do. -/
theorem memReadByte_cases (s : State) (va : Word) :
    (∃ e, loadCheck s.cfg va 1 = some e ∧ memReadByte s va = .error e) ∨
    (loadCheck s.cfg va 1 = none ∧ regionOf s.cfg (physAddr s.cfg va) = .device ∧
      memReadByte s va = .ok ((Config.deviceDraw s.draws).setWidth 8, s.drawn)) ∨
    (loadCheck s.cfg va 1 = none ∧ regionOf s.cfg (physAddr s.cfg va) ≠ .device ∧
      memReadByte s va = .ok (s.mem.read (physAddr s.cfg va), s)) := by
  unfold memReadByte
  cases h : loadCheck s.cfg va 1 with
  | some e => exact .inl ⟨e, rfl, rfl⟩
  | none =>
    by_cases hd : regionOf s.cfg (physAddr s.cfg va) = .device
    · exact .inr (.inl ⟨rfl, hd, by simp [hd]⟩)
    · exact .inr (.inr ⟨rfl, hd, by simp [hd]⟩)

/-- Everything `MemRead(vaddr, 4)` can do. -/
theorem memReadWord_cases (s : State) (va : Word) :
    (∃ e, loadCheck s.cfg va 4 = some e ∧ memReadWord s va = .error e) ∨
    (loadCheck s.cfg va 4 = none ∧ regionOf s.cfg (physAddr s.cfg va) = .device ∧
      memReadWord s va = .ok (Config.deviceDraw s.draws, s.drawn)) ∨
    (loadCheck s.cfg va 4 = none ∧ regionOf s.cfg (physAddr s.cfg va) ≠ .device ∧
      memReadWord s va = .ok (s.mem.readWord (physAddr s.cfg va), s)) := by
  unfold memReadWord
  cases h : loadCheck s.cfg va 4 with
  | some e => exact .inl ⟨e, rfl, rfl⟩
  | none =>
    by_cases hd : regionOf s.cfg (physAddr s.cfg va) = .device
    · exact .inr (.inl ⟨rfl, hd, by simp [hd]⟩)
    · exact .inr (.inr ⟨rfl, hd, by simp [hd]⟩)

/-- Everything `MemWrite(vaddr, 1, v)` can do. -/
theorem memWriteByte_cases (s : State) (va : Word) (v : Byte) :
    (∃ e, storeCheck s.cfg va 1 = some e ∧ memWriteByte s va v = .error e) ∨
    (storeCheck s.cfg va 1 = none ∧ regionOf s.cfg (physAddr s.cfg va) = .device ∧
      memWriteByte s va v = .ok (s.emit (.byte (physAddr s.cfg va) v))) ∨
    (storeCheck s.cfg va 1 = none ∧ regionOf s.cfg (physAddr s.cfg va) ≠ .device ∧
      memWriteByte s va v = .ok (s.setMem (s.mem.write (physAddr s.cfg va) v))) := by
  unfold memWriteByte
  cases h : storeCheck s.cfg va 1 with
  | some e => exact .inl ⟨e, rfl, rfl⟩
  | none =>
    by_cases hd : regionOf s.cfg (physAddr s.cfg va) = .device
    · exact .inr (.inl ⟨rfl, hd, by simp [hd]⟩)
    · exact .inr (.inr ⟨rfl, hd, by simp [hd]⟩)

/-- Everything `MemWrite(vaddr, 4, v)` can do. -/
theorem memWriteWord_cases (s : State) (va : Word) (v : Word) :
    (∃ e, storeCheck s.cfg va 4 = some e ∧ memWriteWord s va v = .error e) ∨
    (storeCheck s.cfg va 4 = none ∧ regionOf s.cfg (physAddr s.cfg va) = .device ∧
      memWriteWord s va v = .ok (s.emit (.word (physAddr s.cfg va) v))) ∨
    (storeCheck s.cfg va 4 = none ∧ regionOf s.cfg (physAddr s.cfg va) ≠ .device ∧
      memWriteWord s va v = .ok (s.setMem (s.mem.writeWord (physAddr s.cfg va) v))) := by
  unfold memWriteWord
  cases h : storeCheck s.cfg va 4 with
  | some e => exact .inl ⟨e, rfl, rfl⟩
  | none =>
    by_cases hd : regionOf s.cfg (physAddr s.cfg va) = .device
    · exact .inr (.inl ⟨rfl, hd, by simp [hd]⟩)
    · exact .inr (.inr ⟨rfl, hd, by simp [hd]⟩)

/-! ## The fetch -/

theorem fetchWord_misaligned {s : State} (h : s.pc.toNat % 4 ≠ 0) :
    fetchWord s = .error (.addressError .fetch s.pc) := by
  rw [fetchWord, (wordAligned_eq_false_iff _).2 h]
  rfl

theorem fetchWord_ram {s : State} (h : s.pc.toNat % 4 = 0)
    (hr : ∀ k < 4, regionOf s.cfg (physAddr s.cfg s.pc + k) = .ram) :
    fetchWord s = .ok (s.mem.readWord (physAddr s.cfg s.pc)) := by
  have ha : allBytes 4 (physAddr s.cfg s.pc) (regionOf s.cfg · == .ram) = true := allBytes_iff.2 (by simpa using hr)
  rw [fetchWord, (wordAligned_iff _).2 h, if_pos rfl, translate_fst, if_pos ha]

theorem fetchWord_unmapped {s : State} (h : s.pc.toNat % 4 = 0)
    (hr : ¬ ∀ k < 4, regionOf s.cfg (physAddr s.cfg s.pc + k) = .ram) :
    fetchWord s = .error (.unmapped .fetch s.pc) := by
  have ha : ¬ allBytes 4 (physAddr s.cfg s.pc) (regionOf s.cfg · == .ram) = true :=
    fun e => hr (by simpa using allBytes_iff.1 e)
  rw [fetchWord, (wordAligned_iff _).2 h, if_pos rfl, translate_fst, if_neg ha]

theorem fetchInstr_error {s : State} {c : Cause} (h : fetchWord s = .error c) : fetchInstr s = .error c := by
  rw [fetchInstr, h]

theorem fetchInstr_decodes {s : State} {w : Word} {i : Instr} (h : fetchWord s = .ok w)
    (hd : decodeIn s.cfg.profile w = .ok i) : fetchInstr s = .ok i := by
  simp [fetchInstr, h, hd]

theorem fetchInstr_reserved {s : State} {w : Word} {e : DecodeError} (h : fetchWord s = .ok w)
    (hd : decodeIn s.cfg.profile w = .error e) : fetchInstr s = .error (.reservedInstruction w) := by
  simp [fetchInstr, h, hd]

end Sys2Proof.Machine
end

