-- ==== Sys2Proof/Laws/Regs.lean ====
section
/-! SUPPORT. Reading and writing registers (R10, R11): register 0 reads as zero and discards writes, a write is read back,
and leaves every other register alone. -/

namespace Sys2Proof.Machine

theorem regNum_toNat_ne_zero {r : RegNum} (h : r ≠ 0) : r.toNat ≠ 0 := fun e => h (BitVec.eq_of_toNat_eq e)

@[simp] theorem RegFile.read_zero (g : RegFile) : g.read 0#5 = 0#32 := rfl

@[simp] theorem RegFile.write_zero (g : RegFile) (v : Word) : g.write 0#5 v = g := rfl

theorem RegFile.read_of_ne {r : RegNum} (h : r ≠ 0) (g : RegFile) :
    g.read r = g[r.toNat - 1]'(by have := r.isLt; have := regNum_toNat_ne_zero h; omega) := dif_neg h

theorem RegFile.write_of_ne {r : RegNum} (h : r ≠ 0) (g : RegFile) (v : Word) :
    g.write r v = g.set (r.toNat - 1) v (by have := r.isLt; have := regNum_toNat_ne_zero h; omega) := dif_neg h

theorem RegFile.read_write_same (g : RegFile) {r : RegNum} (h : r ≠ 0) (v : Word) : (g.write r v).read r = v := by
  rw [RegFile.read_of_ne h, RegFile.write_of_ne h]
  exact Vector.getElem_set_self _

theorem RegFile.read_write_other (g : RegFile) {r q : RegNum} (h : q ≠ r) (v : Word) :
    (g.write r v).read q = g.read q := by
  by_cases hr : r = 0
  · subst hr; rfl
  by_cases hq : q = 0
  · subst hq; rfl
  have hne : r.toNat - 1 ≠ q.toNat - 1 := by
    have := regNum_toNat_ne_zero hr
    have := regNum_toNat_ne_zero hq
    have : q.toNat ≠ r.toNat := fun e => h (BitVec.eq_of_toNat_eq e)
    omega
  rw [RegFile.read_of_ne hq, RegFile.read_of_ne hq, RegFile.write_of_ne hr]
  exact Vector.getElem_set_ne _ _ hne

@[simp] theorem State.reg_zero (s : State) : s.reg 0#5 = 0#32 := rfl

theorem State.setReg_reg_same (s : State) {r : RegNum} (h : r ≠ 0) (v : Word) : (s.setReg r v).reg r = v :=
  RegFile.read_write_same s.gpr h v

theorem State.setReg_reg_other (s : State) {r q : RegNum} (h : q ≠ r) (v : Word) : (s.setReg r v).reg q = s.reg q :=
  RegFile.read_write_other s.gpr h v

end Sys2Proof.Machine
end

