-- ==== Sys2Proof/Laws/Ops.lean ====
section
/-! SUPPORT. The shared endings of the meanings, each by one lemma that says everything it can do, and the inversion of
`exec`: what any instruction can do to the state. -/

namespace Sys2Proof.Machine

/-! ## What each ending does, in the words of Safety.lean -/

theorem regWritten_setReg (s : State) (rd : RegNum) (v : Word) : RegWritten s (s.setReg rd v) rd v :=
  ⟨fun h => s.setReg_reg_same h v, rfl, fun _ h => s.setReg_reg_other h v⟩

theorem goesOn_advance (s : State) : GoesOn s s.advance :=
  ⟨fun a h => by simp [h], fun h => by simp [h], rfl⟩

/-- `writeBack` answers a next state that differs from `s` in the one register and in where control is. -/
theorem writeBack_spec (s : State) (rd : RegNum) (v : Word) :
    ∃ t, writeBack s rd v = .next t ∧ WritesOnly s t rd v :=
  ⟨_, rfl, regWritten_setReg s rd v, goesOn_advance s, fun _ => rfl, rfl, rfl, rfl, rfl⟩

theorem takeException_spec (c : Cause) (s : State) : ∃ t, takeException c s = .next t ∧ RaisesOnly s t c :=
  ⟨_, rfl, rfl⟩

theorem transfer_free {s : State} (h : s.pending = none) (a : Word) :
    ∃ t, transfer s a = .next t ∧ BranchesOnly s t a := by
  refine ⟨s.delayed a, by simp [transfer, h], fun _ => rfl, ⟨rfl, rfl⟩, fun _ => rfl, rfl, rfl, rfl, rfl⟩

theorem transferLink_free {s : State} (h : s.pending = none) (link : RegNum) (a : Word) :
    ∃ t, transferLink s link a = .next t ∧ RegWritten s t link (s.pc + 8) ∧ Delays s t a ∧ SameMemory s t ∧ SameRest s t := by
  refine ⟨(s.setReg link (linkValue s.pc)).delayed a, by simp [transferLink, h], regWritten_setReg s link (linkValue s.pc),
    ⟨rfl, rfl⟩, fun _ => rfl, rfl, rfl, rfl, rfl⟩

theorem transfer_in_slot {s : State} (h : s.pending ≠ none) (a : Word) :
    transfer s a = takeException (.controlTransferInDelaySlot s.pc) s :=
  if_pos (Option.isSome_iff_ne_none.2 h)

theorem transferLink_in_slot {s : State} (h : s.pending ≠ none) (link : RegNum) (a : Word) :
    transferLink s link a = takeException (.controlTransferInDelaySlot s.pc) s :=
  if_pos (Option.isSome_iff_ne_none.2 h)

/-! ## The inversion of `exec` -/

/-- What an instruction did when it completed without transferring control: a register write, perhaps after a device
read; a store; or a device write. -/
inductive Completed (i : Instr) (s : State) : State → Prop where
  | wrote (rd : RegNum) (v : Word) (hw : i.writes = some rd) (hs : i.isStore = false) :
      Completed i s (s.setReg rd v).advance
  | drew (rd : RegNum) (v : Word) (hw : i.writes = some rd) (hs : i.isStore = false) :
      Completed i s (s.drawn.setReg rd v).advance
  | storedByte (va : Word) (b : Byte) (hw : i.writes = none) (hs : i.isStore = true)
      (hc : storeCheck s.cfg va 1 = none) : Completed i s (s.setMem (s.mem.write (physAddr s.cfg va) b)).advance
  | storedWord (va : Word) (w : Word) (hw : i.writes = none) (hs : i.isStore = true)
      (hc : storeCheck s.cfg va 4 = none) : Completed i s (s.setMem (s.mem.writeWord (physAddr s.cfg va) w)).advance
  | emitted (o : DeviceWrite) (hw : i.writes = none) (hs : i.isStore = true) : Completed i s (s.emit o).advance

/-- What a control transfer did when it completed: left a target pending, perhaps after linking. -/
inductive Transferred (i : Instr) (s : State) : State → Prop where
  | plain (a : Word) (hw : i.writes = none) : Transferred i s (s.delayed a)
  | linked (rd : RegNum) (a : Word) (hw : i.writes = some rd) :
      Transferred i s ((s.setReg rd (linkValue s.pc)).delayed a)

theorem writeUnlessOverflow_cases (s : State) (rd : RegNum) (tmp : BitVec 33) :
    (overflows tmp = true ∧ writeUnlessOverflow s rd tmp = .next (s.raised (.integerOverflow s.pc))) ∨
    (overflows tmp = false ∧ writeUnlessOverflow s rd tmp = .next (s.setReg rd (low32 tmp)).advance) := by
  cases h : overflows tmp
  · exact .inr ⟨rfl, by simp [writeUnlessOverflow, writeBack, h]⟩
  · exact .inl ⟨rfl, by simp [writeUnlessOverflow, takeException, h]⟩

/-- Everything a completing instruction that is no control transfer can be. -/
abbrev Plain (i : Instr) (s : State) (o : Host.Outcome State Fault Refusal) : Prop :=
  (∃ c, o = .next (s.raised c)) ∨ ∃ t, o = .next t ∧ Completed i s t

theorem plain_writeBack {i : Instr} {rd : RegNum} (s : State) (v : Word) (hw : i.writes = some rd)
    (hs : i.isStore = false) : Plain i s (writeBack s rd v) := .inr ⟨_, rfl, .wrote rd v hw hs⟩

theorem plain_writeUnlessOverflow {i : Instr} {rd : RegNum} (s : State) (tmp : BitVec 33) (hw : i.writes = some rd)
    (hs : i.isStore = false) : Plain i s (writeUnlessOverflow s rd tmp) := by
  obtain ⟨-, h⟩ | ⟨-, h⟩ := writeUnlessOverflow_cases s rd tmp
  · exact .inl ⟨_, h⟩
  · exact .inr ⟨_, h, .wrote rd _ hw hs⟩

theorem plain_lb (rt : RegNum) (offset : BitVec 16) (base : RegNum) (s : State) :
    Plain (.lb rt offset base) s (execLb rt offset base s) := by
  unfold execLb
  obtain ⟨e, -, h⟩ | ⟨-, -, h⟩ | ⟨-, -, h⟩ := memReadByte_cases s (effectiveAddr (s.reg base) offset) <;> rw [h]
  · exact .inl ⟨e, rfl⟩
  · exact .inr ⟨_, rfl, .drew rt _ rfl rfl⟩
  · exact .inr ⟨_, rfl, .wrote rt _ rfl rfl⟩

theorem plain_lw (rt : RegNum) (offset : BitVec 16) (base : RegNum) (s : State) :
    Plain (.lw rt offset base) s (execLw rt offset base s) := by
  unfold execLw
  split
  · obtain ⟨e, -, h⟩ | ⟨-, -, h⟩ | ⟨-, -, h⟩ := memReadWord_cases s (effectiveAddr (s.reg base) offset) <;> rw [h]
    · exact .inl ⟨e, rfl⟩
    · exact .inr ⟨_, rfl, .drew rt _ rfl rfl⟩
    · exact .inr ⟨_, rfl, .wrote rt _ rfl rfl⟩
  · exact .inl ⟨_, rfl⟩

theorem plain_sb (rt : RegNum) (offset : BitVec 16) (base : RegNum) (s : State) :
    Plain (.sb rt offset base) s (execSb rt offset base s) := by
  unfold execSb
  obtain ⟨e, -, h⟩ | ⟨-, -, h⟩ | ⟨hc, -, h⟩ :=
    memWriteByte_cases s (effectiveAddr (s.reg base) offset) (byteOf (s.reg rt) 0) <;> rw [h]
  · exact .inl ⟨e, rfl⟩
  · exact .inr ⟨_, rfl, .emitted _ rfl rfl⟩
  · exact .inr ⟨_, rfl, .storedByte _ _ rfl rfl hc⟩

theorem plain_sw (rt : RegNum) (offset : BitVec 16) (base : RegNum) (s : State) :
    Plain (.sw rt offset base) s (execSw rt offset base s) := by
  unfold execSw
  split
  · obtain ⟨e, -, h⟩ | ⟨-, -, h⟩ | ⟨hc, -, h⟩ :=
      memWriteWord_cases s (effectiveAddr (s.reg base) offset) (s.reg rt) <;> rw [h]
    · exact .inl ⟨e, rfl⟩
    · exact .inr ⟨_, rfl, .emitted _ rfl rfl⟩
    · exact .inr ⟨_, rfl, .storedWord _ _ rfl rfl hc⟩
  · exact .inl ⟨_, rfl⟩

theorem transfer_cases {i : Instr} (s : State) (a : Word) (hw : i.writes = none) :
    (∃ c, transfer s a = .next (s.raised c)) ∨ (s.pending = none ∧ ∃ t, transfer s a = .next t ∧ Transferred i s t) := by
  cases h : s.pending with
  | none => exact .inr ⟨rfl, s.delayed a, by simp [transfer, h], .plain a hw⟩
  | some x => exact .inl ⟨_, transfer_in_slot (by simp [h]) a⟩

theorem transferLink_cases {i : Instr} {link : RegNum} (s : State) (a : Word) (hw : i.writes = some link) :
    (∃ c, transferLink s link a = .next (s.raised c)) ∨
      (s.pending = none ∧ ∃ t, transferLink s link a = .next t ∧ Transferred i s t) := by
  cases h : s.pending with
  | none => exact .inr ⟨rfl, _, by simp only [transferLink, h]; rfl, .linked link a hw⟩
  | some x => exact .inl ⟨_, transferLink_in_slot (by simp [h]) link a⟩

/-- Everything an instruction can do: raise; complete and go on; or transfer control, outside a delay slot. -/
theorem exec_cases (i : Instr) (s : State) :
    (∃ c, exec i s = .next (s.raised c)) ∨
    (i.isControlTransfer = false ∧ ∃ t, exec i s = .next t ∧ Completed i s t) ∨
    (i.isControlTransfer = true ∧ s.pending = none ∧ ∃ t, exec i s = .next t ∧ Transferred i s t) := by
  have plain (h : i.isControlTransfer = false) (hp : Plain i s (exec i s)) :
      (∃ c, exec i s = .next (s.raised c)) ∨
      (i.isControlTransfer = false ∧ ∃ t, exec i s = .next t ∧ Completed i s t) ∨
      (i.isControlTransfer = true ∧ s.pending = none ∧ ∃ t, exec i s = .next t ∧ Transferred i s t) :=
    hp.imp id fun hp => .inl ⟨h, hp⟩
  have control (h : i.isControlTransfer = true)
      (hp : (∃ c, exec i s = .next (s.raised c)) ∨
        (s.pending = none ∧ ∃ t, exec i s = .next t ∧ Transferred i s t)) :
      (∃ c, exec i s = .next (s.raised c)) ∨
      (i.isControlTransfer = false ∧ ∃ t, exec i s = .next t ∧ Completed i s t) ∨
      (i.isControlTransfer = true ∧ s.pending = none ∧ ∃ t, exec i s = .next t ∧ Transferred i s t) :=
    hp.imp id fun hp => .inr ⟨h, hp⟩
  cases i with
  | add => exact plain rfl (plain_writeUnlessOverflow s _ rfl rfl)
  | addi => exact plain rfl (plain_writeUnlessOverflow s _ rfl rfl)
  | sub => exact plain rfl (plain_writeUnlessOverflow s _ rfl rfl)
  | addu => exact plain rfl (plain_writeBack s _ rfl rfl)
  | addiu => exact plain rfl (plain_writeBack s _ rfl rfl)
  | slt => exact plain rfl (plain_writeBack s _ rfl rfl)
  | mul => exact plain rfl (plain_writeBack s _ rfl rfl)
  | and => exact plain rfl (plain_writeBack s _ rfl rfl)
  | andi => exact plain rfl (plain_writeBack s _ rfl rfl)
  | lui => exact plain rfl (plain_writeBack s _ rfl rfl)
  | or => exact plain rfl (plain_writeBack s _ rfl rfl)
  | ori => exact plain rfl (plain_writeBack s _ rfl rfl)
  | xor => exact plain rfl (plain_writeBack s _ rfl rfl)
  | xori => exact plain rfl (plain_writeBack s _ rfl rfl)
  | sllv => exact plain rfl (plain_writeBack s _ rfl rfl)
  | sll => exact plain rfl (plain_writeBack s _ rfl rfl)
  | srav => exact plain rfl (plain_writeBack s _ rfl rfl)
  | sra => exact plain rfl (plain_writeBack s _ rfl rfl)
  | srlv => exact plain rfl (plain_writeBack s _ rfl rfl)
  | srl => exact plain rfl (plain_writeBack s _ rfl rfl)
  | beq => exact control rfl (transfer_cases s _ rfl)
  | bne => exact control rfl (transfer_cases s _ rfl)
  | bgez => exact control rfl (transfer_cases s _ rfl)
  | bgtz => exact control rfl (transfer_cases s _ rfl)
  | blez => exact control rfl (transfer_cases s _ rfl)
  | bltz => exact control rfl (transfer_cases s _ rfl)
  | j => exact control rfl (transfer_cases s _ rfl)
  | jal => exact control rfl (transferLink_cases s _ rfl)
  | jr => exact control rfl (transfer_cases s _ rfl)
  | jalr => exact control rfl (transferLink_cases s _ rfl)
  | lb rt offset base => exact plain rfl (plain_lb rt offset base s)
  | lw rt offset base => exact plain rfl (plain_lw rt offset base s)
  | sb rt offset base => exact plain rfl (plain_sb rt offset base s)
  | sw rt offset base => exact plain rfl (plain_sw rt offset base s)

/-- Everything a step from a running state can do: raise before the instruction, or run it. -/
theorem step_cases {s : State} (h : s.status = .running) :
    (∃ c, fetchInstr s = .error c ∧ step s = .next (s.raised c)) ∨ (∃ i, fetchInstr s = .ok i ∧ step s = exec i s) := by
  unfold step
  rw [h]
  cases hf : fetchInstr s with
  | error c => exact .inl ⟨c, rfl, rfl⟩
  | ok i => exact .inr ⟨i, rfl, rfl⟩

/-- A step that answers a next state started running. -/
theorem running_of_step {s t : State} (h : step s = .next t) : s.status = .running := by
  cases hs : s.status with
  | running => rfl
  | fault c => rw [step, hs] at h; cases h

end Sys2Proof.Machine
end

