-- ==== Sys2Proof/Laws/PerInstr.lean ====
section
/-! SUPPORT. Statements about every instruction as syntax, one lemma per constructor. Family RowMatch: the encoder's word
of an instruction meets the test of the instruction's own row of the opcode table (R72). -/

namespace Sys2Proof.Laws.RowMatch

/-- The word of `i` meets the test of the row that carries `i`'s mnemonic (R72). -/
def Statement (i : Instr) : Prop := ∃ r ∈ opcodeTable, r.mnemonic = i.mnemonic ∧ r.matches (encode i) = true

theorem add (rd : RegNum) (rs : RegNum) (rt : RegNum) : Statement (.add rd rs rt) := by
  refine ⟨⟨.add, 0x00000020, 0xFC0007FF⟩, by decide, rfl, ?_⟩
  simp [matches_iff, encode]
  simp [opcodeOf, rsOf, rtOf, rdOf, saOf, functOf]

theorem addi (rt : RegNum) (rs : RegNum) (imm : BitVec 16) : Statement (.addi rt rs imm) := by
  refine ⟨⟨.addi, 0x20000000, 0xFC000000⟩, by decide, rfl, ?_⟩
  simp [matches_iff, encode]
  simp [opcodeOf, rsOf, rtOf, rdOf, saOf, functOf]

theorem addu (rd : RegNum) (rs : RegNum) (rt : RegNum) : Statement (.addu rd rs rt) := by
  refine ⟨⟨.addu, 0x00000021, 0xFC0007FF⟩, by decide, rfl, ?_⟩
  simp [matches_iff, encode]
  simp [opcodeOf, rsOf, rtOf, rdOf, saOf, functOf]

theorem addiu (rt : RegNum) (rs : RegNum) (imm : BitVec 16) : Statement (.addiu rt rs imm) := by
  refine ⟨⟨.addiu, 0x24000000, 0xFC000000⟩, by decide, rfl, ?_⟩
  simp [matches_iff, encode]
  simp [opcodeOf, rsOf, rtOf, rdOf, saOf, functOf]

theorem sub (rd : RegNum) (rs : RegNum) (rt : RegNum) : Statement (.sub rd rs rt) := by
  refine ⟨⟨.sub, 0x00000022, 0xFC0007FF⟩, by decide, rfl, ?_⟩
  simp [matches_iff, encode]
  simp [opcodeOf, rsOf, rtOf, rdOf, saOf, functOf]

theorem slt (rd : RegNum) (rs : RegNum) (rt : RegNum) : Statement (.slt rd rs rt) := by
  refine ⟨⟨.slt, 0x0000002A, 0xFC0007FF⟩, by decide, rfl, ?_⟩
  simp [matches_iff, encode]
  simp [opcodeOf, rsOf, rtOf, rdOf, saOf, functOf]

theorem mul (rd : RegNum) (rs : RegNum) (rt : RegNum) : Statement (.mul rd rs rt) := by
  refine ⟨⟨.mul, 0x70000002, 0xFC0007FF⟩, by decide, rfl, ?_⟩
  simp [matches_iff, encode]
  simp [opcodeOf, rsOf, rtOf, rdOf, saOf, functOf]

theorem and (rd : RegNum) (rs : RegNum) (rt : RegNum) : Statement (.and rd rs rt) := by
  refine ⟨⟨.and, 0x00000024, 0xFC0007FF⟩, by decide, rfl, ?_⟩
  simp [matches_iff, encode]
  simp [opcodeOf, rsOf, rtOf, rdOf, saOf, functOf]

theorem andi (rt : RegNum) (rs : RegNum) (imm : BitVec 16) : Statement (.andi rt rs imm) := by
  refine ⟨⟨.andi, 0x30000000, 0xFC000000⟩, by decide, rfl, ?_⟩
  simp [matches_iff, encode]
  simp [opcodeOf, rsOf, rtOf, rdOf, saOf, functOf]

theorem lui (rt : RegNum) (imm : BitVec 16) : Statement (.lui rt imm) := by
  refine ⟨⟨.lui, 0x3C000000, 0xFFE00000⟩, by decide, rfl, ?_⟩
  simp [matches_iff, encode]
  simp [opcodeOf, rsOf, rtOf, rdOf, saOf, functOf]

theorem or (rd : RegNum) (rs : RegNum) (rt : RegNum) : Statement (.or rd rs rt) := by
  refine ⟨⟨.or, 0x00000025, 0xFC0007FF⟩, by decide, rfl, ?_⟩
  simp [matches_iff, encode]
  simp [opcodeOf, rsOf, rtOf, rdOf, saOf, functOf]

theorem ori (rt : RegNum) (rs : RegNum) (imm : BitVec 16) : Statement (.ori rt rs imm) := by
  refine ⟨⟨.ori, 0x34000000, 0xFC000000⟩, by decide, rfl, ?_⟩
  simp [matches_iff, encode]
  simp [opcodeOf, rsOf, rtOf, rdOf, saOf, functOf]

theorem xor (rd : RegNum) (rs : RegNum) (rt : RegNum) : Statement (.xor rd rs rt) := by
  refine ⟨⟨.xor, 0x00000026, 0xFC0007FF⟩, by decide, rfl, ?_⟩
  simp [matches_iff, encode]
  simp [opcodeOf, rsOf, rtOf, rdOf, saOf, functOf]

theorem xori (rt : RegNum) (rs : RegNum) (imm : BitVec 16) : Statement (.xori rt rs imm) := by
  refine ⟨⟨.xori, 0x38000000, 0xFC000000⟩, by decide, rfl, ?_⟩
  simp [matches_iff, encode]
  simp [opcodeOf, rsOf, rtOf, rdOf, saOf, functOf]

theorem sllv (rd : RegNum) (rt : RegNum) (rs : RegNum) : Statement (.sllv rd rt rs) := by
  refine ⟨⟨.sllv, 0x00000004, 0xFC0007FF⟩, by decide, rfl, ?_⟩
  simp [matches_iff, encode]
  simp [opcodeOf, rsOf, rtOf, rdOf, saOf, functOf]

theorem sll (rd : RegNum) (rt : RegNum) (sa : BitVec 5) : Statement (.sll rd rt sa) := by
  refine ⟨⟨.sll, 0x00000000, 0xFFE0003F⟩, by decide, rfl, ?_⟩
  simp [matches_iff, encode]
  simp [opcodeOf, rsOf, rtOf, rdOf, saOf, functOf]

theorem srav (rd : RegNum) (rt : RegNum) (rs : RegNum) : Statement (.srav rd rt rs) := by
  refine ⟨⟨.srav, 0x00000007, 0xFC0007FF⟩, by decide, rfl, ?_⟩
  simp [matches_iff, encode]
  simp [opcodeOf, rsOf, rtOf, rdOf, saOf, functOf]

theorem sra (rd : RegNum) (rt : RegNum) (sa : BitVec 5) : Statement (.sra rd rt sa) := by
  refine ⟨⟨.sra, 0x00000003, 0xFFE0003F⟩, by decide, rfl, ?_⟩
  simp [matches_iff, encode]
  simp [opcodeOf, rsOf, rtOf, rdOf, saOf, functOf]

theorem srlv (rd : RegNum) (rt : RegNum) (rs : RegNum) : Statement (.srlv rd rt rs) := by
  refine ⟨⟨.srlv, 0x00000006, 0xFC0007FF⟩, by decide, rfl, ?_⟩
  simp [matches_iff, encode]
  simp [opcodeOf, rsOf, rtOf, rdOf, saOf, functOf]

theorem srl (rd : RegNum) (rt : RegNum) (sa : BitVec 5) : Statement (.srl rd rt sa) := by
  refine ⟨⟨.srl, 0x00000002, 0xFFE0003F⟩, by decide, rfl, ?_⟩
  simp [matches_iff, encode]
  simp [opcodeOf, rsOf, rtOf, rdOf, saOf, functOf]

theorem beq (rs : RegNum) (rt : RegNum) (offset : BitVec 16) : Statement (.beq rs rt offset) := by
  refine ⟨⟨.beq, 0x10000000, 0xFC000000⟩, by decide, rfl, ?_⟩
  simp [matches_iff, encode]
  simp [opcodeOf, rsOf, rtOf, rdOf, saOf, functOf]

theorem bne (rs : RegNum) (rt : RegNum) (offset : BitVec 16) : Statement (.bne rs rt offset) := by
  refine ⟨⟨.bne, 0x14000000, 0xFC000000⟩, by decide, rfl, ?_⟩
  simp [matches_iff, encode]
  simp [opcodeOf, rsOf, rtOf, rdOf, saOf, functOf]

theorem bgez (rs : RegNum) (offset : BitVec 16) : Statement (.bgez rs offset) := by
  refine ⟨⟨.bgez, 0x04010000, 0xFC1F0000⟩, by decide, rfl, ?_⟩
  simp [matches_iff, encode]
  simp [opcodeOf, rsOf, rtOf, rdOf, saOf, functOf]

theorem bgtz (rs : RegNum) (offset : BitVec 16) : Statement (.bgtz rs offset) := by
  refine ⟨⟨.bgtz, 0x1C000000, 0xFC1F0000⟩, by decide, rfl, ?_⟩
  simp [matches_iff, encode]
  simp [opcodeOf, rsOf, rtOf, rdOf, saOf, functOf]

theorem blez (rs : RegNum) (offset : BitVec 16) : Statement (.blez rs offset) := by
  refine ⟨⟨.blez, 0x18000000, 0xFC1F0000⟩, by decide, rfl, ?_⟩
  simp [matches_iff, encode]
  simp [opcodeOf, rsOf, rtOf, rdOf, saOf, functOf]

theorem bltz (rs : RegNum) (offset : BitVec 16) : Statement (.bltz rs offset) := by
  refine ⟨⟨.bltz, 0x04000000, 0xFC1F0000⟩, by decide, rfl, ?_⟩
  simp [matches_iff, encode]
  simp [opcodeOf, rsOf, rtOf, rdOf, saOf, functOf]

theorem j (index : BitVec 26) : Statement (.j index) := by
  refine ⟨⟨.j, 0x08000000, 0xFC000000⟩, by decide, rfl, ?_⟩
  simp [matches_iff, encode]
  simp [opcodeOf, rsOf, rtOf, rdOf, saOf, functOf]

theorem jal (index : BitVec 26) : Statement (.jal index) := by
  refine ⟨⟨.jal, 0x0C000000, 0xFC000000⟩, by decide, rfl, ?_⟩
  simp [matches_iff, encode]
  simp [opcodeOf, rsOf, rtOf, rdOf, saOf, functOf]

theorem jr (rs : RegNum) : Statement (.jr rs) := by
  refine ⟨⟨.jr, 0x00000008, 0xFC1FFFFF⟩, by decide, rfl, ?_⟩
  simp [matches_iff, encode]
  simp [opcodeOf, rsOf, rtOf, rdOf, saOf, functOf]

theorem jalr (rd : RegNum) (rs : RegNum) : Statement (.jalr rd rs) := by
  refine ⟨⟨.jalr, 0x00000009, 0xFC1F07FF⟩, by decide, rfl, ?_⟩
  simp [matches_iff, encode]
  simp [opcodeOf, rsOf, rtOf, rdOf, saOf, functOf]

theorem lb (rt : RegNum) (offset : BitVec 16) (base : RegNum) : Statement (.lb rt offset base) := by
  refine ⟨⟨.lb, 0x80000000, 0xFC000000⟩, by decide, rfl, ?_⟩
  simp [matches_iff, encode]
  simp [opcodeOf, rsOf, rtOf, rdOf, saOf, functOf]

theorem lw (rt : RegNum) (offset : BitVec 16) (base : RegNum) : Statement (.lw rt offset base) := by
  refine ⟨⟨.lw, 0x8C000000, 0xFC000000⟩, by decide, rfl, ?_⟩
  simp [matches_iff, encode]
  simp [opcodeOf, rsOf, rtOf, rdOf, saOf, functOf]

theorem sb (rt : RegNum) (offset : BitVec 16) (base : RegNum) : Statement (.sb rt offset base) := by
  refine ⟨⟨.sb, 0xA0000000, 0xFC000000⟩, by decide, rfl, ?_⟩
  simp [matches_iff, encode]
  simp [opcodeOf, rsOf, rtOf, rdOf, saOf, functOf]

theorem sw (rt : RegNum) (offset : BitVec 16) (base : RegNum) : Statement (.sw rt offset base) := by
  refine ⟨⟨.sw, 0xAC000000, 0xFC000000⟩, by decide, rfl, ?_⟩
  simp [matches_iff, encode]
  simp [opcodeOf, rsOf, rtOf, rdOf, saOf, functOf]

end Sys2Proof.Laws.RowMatch
end

