-- ==== Sys2Proof/Tests/Slice0.lean ====
section
/-! SUPPORT. The model's own tests. Every expected result is from the spec: 95_test_vectors.md (sections 1, 2 and 3), the
encodings of R72 written out bit by bit, or the rule named. Then one witness for every statement with hypotheses: concrete
states and operands that meet them all. -/

namespace Sys2Proof.Tests
open Sys2Proof.Machine

/-! ## Helpers -/

/-- Device registers at 0x1000_0000, nothing at 0x1800_0000, the instruction under test in `TEXT`. -/
def windows : Config :=
  { Config.default with
    physmap := ⟨[⟨⟨0x10000000, 0x100⟩, .device⟩, ⟨⟨0x18000000, 0x100⟩, .nothing⟩], .ram⟩
    text := [⟨0x100, 4⟩] }

/-- The state of 95_test_vectors.md section 2: the word `w` at `pc`, registers as given, everything else as launched. -/
def stateAt (w : Nat) (regs : List (RegNum × Word)) (pc : Word := 0x80000100) (pending : Option Word := none)
    (cfg : Config := .default) : State :=
  regs.foldl (fun s p => s.setReg p.1 p.2)
    (State.withFetchWord { State.launch { Launch.default with cfg := cfg, resetPc := pc } with pending := pending } 32 w)

/-- The state after one step. -/
def after (s : State) : State :=
  match step s with
  | .next t => t
  | _ => s

/-- The state after one instruction. -/
def ran (i : Instr) (s : State) : State :=
  match exec i s with
  | .next t => t
  | _ => s

/-- The state with a word stored at a physical address. -/
def withWord (s : State) (pa : Nat) (w : Word) : State := s.setMem (s.mem.writeWord pa w)

/-! ## WellFormed: an ill-formed term for each check -/

theorem test_wellFormed_profile_refuses : Instr.wellFormed .c1 (.sll 0 0 0) = false := by decide
theorem test_wellFormed_c2_refuses : Instr.wellFormed (.c2 .add .sra .bgez) (.addi 1 2 3) = false := by decide
theorem test_wellFormed_c3_refuses : Instr.wellFormed .c3 (.jalr 31 1) = false := by decide
theorem test_wellFormed_c2_accepts_its_pick : Instr.wellFormed (.c2 .slt .sra .jalr) (.slt 1 2 3) = true := by decide
theorem test_wellFormed_default_segmap : SegMap.mips32.wellFormed = true := by decide
theorem test_wellFormed_segmap_gap_refused :
    SegMap.wellFormed { SegMap.mips32 with seg4 := ⟨"kseg3", 0xE0000000, 0x10000000, 0xE0000000⟩ } = false := by decide
theorem test_wellFormed_segmap_overlap_refused :
    SegMap.wellFormed { SegMap.mips32 with seg1 := ⟨"kseg0", 0x7FFFFFFC, 0x20000004, 0⟩ } = false := by decide
theorem test_wellFormed_segment_empty_refused : Segment.wellFormed ⟨"s", 0, 0, 0⟩ = false := by decide
theorem test_wellFormed_segment_beyond_memory_refused : Segment.wellFormed ⟨"s", 0, 0x20000000, 0xE0000004⟩ = false := by decide
theorem test_wellFormed_segment_vbase_refused : Segment.wellFormed ⟨"s", 2, 8, 0⟩ = false := by decide
theorem test_wellFormed_segment_size_refused : Segment.wellFormed ⟨"s", 0, 6, 0⟩ = false := by decide
theorem test_wellFormed_segment_pbase_refused : Segment.wellFormed ⟨"s", 0, 8, 1⟩ = false := by decide
theorem test_wellFormed_default_launch : Launch.default.wellFormed = true := by decide
theorem test_wellFormed_launch_pc_refused : Launch.wellFormed { Launch.default with resetPc := 0x80000002 } = false := by decide
theorem test_wellFormed_launch_image_refused : Launch.wellFormed { Launch.default with image := [(4, 0)] } = false := by decide
theorem test_wf_memory_order_refused : Memory.wf [(8, 1), (4, 1)] = false := by decide
theorem test_wf_memory_beyond_space_refused : Memory.wf [(0x100000000, 1)] = false := by decide

/-! ## Decoding: one word per instruction, from the patterns of R72, the fields rs = 1, rt = 2, rd = 3 unless they show -/

theorem test_decode_add : decodeWord 0b00000000001000100001100000100000 = .ok (.add 3 1 2) := by decide
theorem test_decode_addu : decodeWord 0b00000000001000100001100000100001 = .ok (.addu 3 1 2) := by decide
theorem test_decode_sub : decodeWord 0b00000000001000100001100000100010 = .ok (.sub 3 1 2) := by decide
theorem test_decode_slt : decodeWord 0b00000000001000100001100000101010 = .ok (.slt 3 1 2) := by decide
theorem test_decode_and : decodeWord 0b00000000001000100001100000100100 = .ok (.and 3 1 2) := by decide
theorem test_decode_or : decodeWord 0b00000000001000100001100000100101 = .ok (.or 3 1 2) := by decide
theorem test_decode_xor : decodeWord 0b00000000001000100001100000100110 = .ok (.xor 3 1 2) := by decide
theorem test_decode_mul : decodeWord 0b01110000001000100001100000000010 = .ok (.mul 3 1 2) := by decide
theorem test_decode_sllv : decodeWord 0b00000000001000100001100000000100 = .ok (.sllv 3 2 1) := by decide
theorem test_decode_srlv : decodeWord 0b00000000001000100001100000000110 = .ok (.srlv 3 2 1) := by decide
theorem test_decode_srav : decodeWord 0b00000000001000100001100000000111 = .ok (.srav 3 2 1) := by decide
theorem test_decode_sll : decodeWord 0b00000000000000100001111111000000 = .ok (.sll 3 2 31) := by decide
theorem test_decode_srl : decodeWord 0b00000000000000100001111111000010 = .ok (.srl 3 2 31) := by decide
theorem test_decode_sra : decodeWord 0b00000000000000100001111111000011 = .ok (.sra 3 2 31) := by decide
theorem test_decode_addi : decodeWord 0b00100000001000101000000000000001 = .ok (.addi 2 1 0x8001) := by decide
theorem test_decode_addiu : decodeWord 0b00100100001000101000000000000001 = .ok (.addiu 2 1 0x8001) := by decide
theorem test_decode_andi : decodeWord 0b00110000001000101000000000000001 = .ok (.andi 2 1 0x8001) := by decide
theorem test_decode_ori : decodeWord 0b00110100001000101000000000000001 = .ok (.ori 2 1 0x8001) := by decide
theorem test_decode_xori : decodeWord 0b00111000001000101000000000000001 = .ok (.xori 2 1 0x8001) := by decide
theorem test_decode_lui : decodeWord 0b00111100000000101000000000000001 = .ok (.lui 2 0x8001) := by decide
theorem test_decode_beq : decodeWord 0b00010000001000101111111111111100 = .ok (.beq 1 2 0xFFFC) := by decide
theorem test_decode_bne : decodeWord 0b00010100001000101111111111111100 = .ok (.bne 1 2 0xFFFC) := by decide
theorem test_decode_bgez : decodeWord 0b00000100001000010000000000010000 = .ok (.bgez 1 0x10) := by decide
theorem test_decode_bgtz : decodeWord 0b00011100001000000000000000010000 = .ok (.bgtz 1 0x10) := by decide
theorem test_decode_blez : decodeWord 0b00011000001000000000000000010000 = .ok (.blez 1 0x10) := by decide
theorem test_decode_bltz : decodeWord 0b00000100001000000000000000010000 = .ok (.bltz 1 0x10) := by decide
theorem test_decode_j : decodeWord 0b00001010000000000000000000000001 = .ok (.j 0x2000001) := by decide
theorem test_decode_jal : decodeWord 0b00001110000000000000000000000001 = .ok (.jal 0x2000001) := by decide
theorem test_decode_jr : decodeWord 0b00000000001000000000000000001000 = .ok (.jr 1) := by decide
theorem test_decode_jalr : decodeWord 0b00000000001000000001100000001001 = .ok (.jalr 3 1) := by decide
theorem test_decode_lb : decodeWord 0b10000000001000101000000000000100 = .ok (.lb 2 0x8004 1) := by decide
theorem test_decode_lw : decodeWord 0b10001100001000101000000000000100 = .ok (.lw 2 0x8004 1) := by decide
theorem test_decode_sb : decodeWord 0b10100000001000101000000000000100 = .ok (.sb 2 0x8004 1) := by decide
theorem test_decode_sw : decodeWord 0b10101100001000101000000000000100 = .ok (.sw 2 0x8004 1) := by decide

/-- The reserved words of 95_test_vectors.md section 2.7, each refused by the reason the rules give. -/
theorem test_decode_reserved_fields :
    decodeWord 0x00200000 = .error (.nonZeroField .sll) ∧ decodeWord 0x00200002 = .error (.nonZeroField .srl) ∧
    decodeWord 0x00221846 = .error (.nonZeroField .srlv) ∧ decodeWord 0x00221860 = .error (.nonZeroField .add) ∧
    decodeWord 0x70221842 = .error (.nonZeroField .mul) ∧ decodeWord 0x18210000 = .error (.nonZeroField .blez) ∧
    decodeWord 0x1C010000 = .error (.nonZeroField .bgtz) ∧ decodeWord 0x3C200000 = .error (.nonZeroField .lui) ∧
    decodeWord 0x00200808 = .error (.nonZeroField .jr) ∧ decodeWord 0x00210009 = .error (.nonZeroField .jalr) ∧
    decodeWord 0x00200049 = .error (.nonZeroField .jalr) := by decide

theorem test_decode_reserved_codes :
    decodeWord 0x70000000 = .error (.reservedSpecial2 0) ∧ decodeWord 0x0000000C = .error (.reservedFunct 0x0C) ∧
    decodeWord 0x0000000D = .error (.reservedFunct 0x0D) ∧ decodeWord 0x42000018 = .error (.reservedOpcode 0x10) ∧
    decodeWord 0x00221823 = .error (.reservedFunct 0x23) ∧ decodeWord 0x00221827 = .error (.reservedFunct 0x27) ∧
    decodeWord 0x00220018 = .error (.reservedFunct 0x18) ∧ decodeWord 0x00001010 = .error (.reservedFunct 0x10) ∧
    decodeWord 0x04020000 = .error (.reservedRegimm 2) ∧ decodeWord 0x04110000 = .error (.reservedRegimm 0x11) ∧
    decodeWord 0x90220000 = .error (.reservedOpcode 0x24) ∧ decodeWord 0x84220000 = .error (.reservedOpcode 0x21) ∧
    decodeWord 0xA4220000 = .error (.reservedOpcode 0x29) ∧ decodeWord 0x28220000 = .error (.reservedOpcode 0x0A) ∧
    decodeWord 0xFFFFFFFF = .error (.reservedOpcode 0x3F) := by decide

theorem test_decode_outside_profile :
    decodeIn .c1 0x00000000 = .error (.outsideProfile .sll) ∧ decodeIn .c1 0x24210001 = .error (.outsideProfile .addiu) ∧
    decodeIn .c1 0x1000FFFF = .error (.outsideProfile .beq) ∧ decodeIn .c1 0x34000000 = .ok (.ori 0 0 0) := by decide

/-- Byte 0 of a word is at the lowest address (R31), and what follows the instruction is left. -/
theorem test_decode_bytes_little_endian :
    decode [0x20, 0x18, 0x22, 0x00, 0xAA] = .ok (.add 3 1 2, [0xAA]) ∧ decode [0x20, 0x18, 0x22] = .error .truncated := by
  decide

theorem test_decodeTableWord_reads_the_word :
    decodeTableWord 32 0x00221820 = some (.add 3 1 2) ∧ decodeTableWord 32 0x0000000C = none := by decide

theorem test_withFetchWord_runs_first :
    (after (State.reset.withFetchWord 32 0x34220007)).reg 2 = 7 ∧ (after (State.reset.withFetchWord 32 0x34220007)).pc = 0x80000004 := by
  decide

/-- Lines of the programs of 95_test_vectors.md section 3 and its table 2.5. -/
theorem test_assemble_listing :
    (assemble .sw [.reg 2, .mem (-4) 29]).map encode = some 0xAFA2FFFC ∧
    (assemble .bne [.reg 1, .reg 0, .imm (-3)]).map encode = some 0x1420FFFD ∧
    (assemble .jal [.target 0x80000020]).map encode = some 0x0C000008 ∧
    (assemble .jalr [.reg 1]).map encode = some 0x0020F809 ∧
    (assemble .sllv [.reg 3, .reg 2, .reg 1]).map encode = some 0x00221804 ∧
    (assemble .slt [.reg 3, .reg 1, .reg 2]).map encode = some 0x0022182A ∧
    (assemble .addiu [.reg 4, .reg 4, .imm (-1)]).map encode = some 0x2484FFFF ∧ encode nop = 0 := by decide

/-- Rows of R79 whose operand order a slip would change, from programs P3 and P2 and the tables of section 2. -/
theorem test_assemble_orders :
    (assemble .sub [.reg 3, .reg 1, .reg 2]).map encode = some 0x00221822 ∧
    (assemble .jalr [.reg 5, .reg 1]).map encode = some 0x00202809 ∧
    (assemble .beq [.reg 1, .reg 2, .imm 3]).map encode = some 0x10220003 ∧
    (assemble .ori [.reg 29, .reg 29, .imm 0x2000]).map encode = some 0x37BD2000 ∧
    (assemble .lb [.reg 2, .mem (-1) 1]).map encode = some 0x8022FFFF ∧
    (assemble .sra [.reg 3, .reg 2, .imm 31]).map encode = some 0x00021FC3 ∧
    (assemble .lui [.reg 2, .imm 0x8899]).map encode = some 0x3C028899 := by decide

theorem test_assemble_refuses :
    assemble .addi [.reg 1, .reg 2, .imm 32768] = none ∧ assemble .ori [.reg 1, .reg 2, .imm (-1)] = none ∧
    assemble .sll [.reg 1, .reg 2, .imm 32] = none ∧ assemble .bne [.reg 1, .imm 4] = none := by decide

/-! ## One step (95_test_vectors.md sections 2.1 to 2.6) -/

theorem test_step_add_largest :
    (after (stateAt 0x00221820 [(1, 0x3FFFFFFF), (2, 0x40000000)])).reg 3 = 0x7FFFFFFF := by decide
theorem test_step_addi_overflows :
    (after (stateAt 0x20228000 [(1, 0x80007FFF)])).status = .fault (.integerOverflow 0x80000100) := by decide
theorem test_step_addi_most_negative : (after (stateAt 0x20228000 [(1, 0x80008000)])).reg 2 = 0x80000000 := by decide
theorem test_step_addu_wraps :
    (after (stateAt 0x00221821 [(1, 0x80000000), (2, 0xFFFFFFFF)])).reg 3 = 0x7FFFFFFF := by decide
theorem test_step_addu_source_is_destination :
    (after (stateAt 0x00210821 [(1, 0x12345678)])).reg 1 = 0x2468ACF0 := by decide
theorem test_step_addiu_sign_extends : (after (stateAt 0x24228000 [(1, 0x0)])).reg 2 = 0xFFFF8000 := by decide
theorem test_step_addiu_wraps : (after (stateAt 0x24227FFF [(1, 0x7FFF8001)])).reg 2 = 0x80000000 := by decide
theorem test_step_sub_overflows :
    (after (stateAt 0x00221822 [(1, 0x0), (2, 0x80000000)])).status = .fault (.integerOverflow 0x80000100) := by decide
theorem test_step_sub_order : (after (stateAt 0x00221822 [(1, 0x3), (2, 0x5)])).reg 3 = 0xFFFFFFFE := by decide
theorem test_step_slt_no_difference :
    (after (stateAt 0x0022182A [(1, 0x7FFFFFFF), (2, 0x80000000), (3, 0x9)])).reg 3 = 0 := by decide
theorem test_step_slt_signed : (after (stateAt 0x0022182A [(1, 0xFFFFFFFF), (2, 0x0)])).reg 3 = 1 := by decide
theorem test_step_mul_low_word :
    (after (stateAt 0x70221802 [(1, 0x12345678), (2, 0x9ABCDEF0)])).reg 3 = 0x242D2080 := by decide
theorem test_step_mul_signs :
    (after (stateAt 0x70221802 [(1, 0x80000000), (2, 0xFFFFFFFF)])).reg 3 = 0x80000000 := by decide
theorem test_step_and : (after (stateAt 0x00221824 [(1, 0xF0F0A5A5), (2, 0xFF0FF00)])).reg 3 = 0x00F0A500 := by decide
theorem test_step_or : (after (stateAt 0x00221825 [(1, 0xF0F0A5A5), (2, 0xFF0FF00)])).reg 3 = 0xFFF0FFA5 := by decide
theorem test_step_xor : (after (stateAt 0x00221826 [(1, 0xF0F0A5A5), (2, 0xFF0FF00)])).reg 3 = 0xFF005AA5 := by decide
theorem test_step_andi_zero_extends : (after (stateAt 0x30228001 [(1, 0xFFFFFFFF)])).reg 2 = 0x00008001 := by decide
theorem test_step_ori_zero_extends : (after (stateAt 0x34228001 [(1, 0x12340000)])).reg 2 = 0x12348001 := by decide
theorem test_step_xori_zero_extends : (after (stateAt 0x38228001 [(1, 0xFFFFFFFF)])).reg 2 = 0xFFFF7FFE := by decide
theorem test_step_lui_clears_low_half : (after (stateAt 0x3C028001 [(2, 0xFFFF)])).reg 2 = 0x80010000 := by decide
theorem test_step_sll_31 : (after (stateAt 0x00021FC0 [(2, 0x80000001)])).reg 3 = 0x80000000 := by decide
theorem test_step_nop_changes_pc_only :
    (after (stateAt 0x00000000 [(1, 0x5)])).reg 0 = 0 ∧
    (after (stateAt 0x00000000 [(1, 0x5)])).pc = 0x80000104 := by decide
theorem test_step_srl_4 : (after (stateAt 0x00021902 [(2, 0x80000001)])).reg 3 = 0x08000000 := by decide
theorem test_step_sra_4 : (after (stateAt 0x00021903 [(2, 0x80000001)])).reg 3 = 0xF8000000 := by decide
theorem test_step_sra_31_positive : (after (stateAt 0x00021FC3 [(2, 0x7FFFFFFF)])).reg 3 = 0 := by decide
theorem test_step_sllv_amount_32_is_0 :
    (after (stateAt 0x00221804 [(1, 0x20), (2, 0x80000001)])).reg 3 = 0x80000001 := by decide
theorem test_step_sllv_same_register : (after (stateAt 0x00210804 [(1, 0x3)])).reg 1 = 0x18 := by decide
theorem test_step_srlv_high_bits_ignored :
    (after (stateAt 0x00221806 [(1, 0x104), (2, 0xFF)])).reg 3 = 0x0000000F := by decide
theorem test_step_srav_31 :
    (after (stateAt 0x00221807 [(1, 0xFFFFFFFF), (2, 0x80000001)])).reg 3 = 0xFFFFFFFF := by decide
theorem test_step_beq_largest_backward : (after (stateAt 0x10008000 [])).pending = some 0x7FFE0104 := by decide
theorem test_step_beq_not_taken :
    (after (stateAt 0x10220003 [(1, 0x5), (2, 0x6)])).pc = 0x80000104 ∧
    (after (stateAt 0x10220003 [(1, 0x5), (2, 0x6)])).pending = some 0x80000108 := by decide
theorem test_step_bne_taken : (after (stateAt 0x1422FFFC [(1, 0x5), (2, 0x6)])).pending = some 0x800000F4 := by decide
theorem test_step_bne_not_taken :
    (after (stateAt 0x1422FFFC [(1, 0x5), (2, 0x5)])).pending = some 0x80000108 := by decide
theorem test_step_bgez_taken : (after (stateAt 0x04210010 [(1, 0x0)])).pending = some 0x80000144 := by decide
theorem test_step_bgez_not_taken : (after (stateAt 0x04210010 [(1, 0x80000000)])).pending = some 0x80000108 := by decide
theorem test_step_bgtz_taken : (after (stateAt 0x1C200010 [(1, 0x7FFFFFFF)])).pending = some 0x80000144 := by decide
theorem test_step_bgtz_not_taken : (after (stateAt 0x1C200010 [(1, 0x0)])).pending = some 0x80000108 := by decide
theorem test_step_blez_taken : (after (stateAt 0x18200010 [(1, 0x0)])).pending = some 0x80000144 := by decide
theorem test_step_blez_not_taken : (after (stateAt 0x18200010 [(1, 0x1)])).pending = some 0x80000108 := by decide
theorem test_step_bltz_taken : (after (stateAt 0x04200010 [(1, 0x80000000)])).pending = some 0x80000144 := by decide
theorem test_step_bltz_not_taken : (after (stateAt 0x04200010 [(1, 0x0)])).pending = some 0x80000108 := by decide
theorem test_step_j_region_of_the_slot :
    (after (stateAt 0x08000040 [] (pc := 0x8FFFFFFC))).pending = some 0x90000100 := by decide
theorem test_step_jal_links :
    (after (stateAt 0x0C000040 [])).reg 31 = 0x80000108 ∧
    (after (stateAt 0x0C000040 [])).pending = some 0x80000100 := by decide
theorem test_step_jr_misaligned_completes :
    (after (stateAt 0x00200008 [(1, 0x80000202)])).status = .running ∧
    (after (stateAt 0x00200008 [(1, 0x80000202)])).pending = some 0x80000202 := by decide
theorem test_step_jalr_same_register :
    (after (stateAt 0x00A02809 [(5, 0x80000200)])).reg 5 = 0x80000108 ∧
    (after (stateAt 0x00A02809 [(5, 0x80000200)])).pending = some 0x80000200 := by decide
theorem test_step_jalr_to_zero_links_nowhere :
    (after (stateAt 0x00200009 [(1, 0x80000200)])).reg 0 = 0 ∧
    (after (stateAt 0x00200009 [(1, 0x80000200)])).pending = some 0x80000200 := by decide
theorem test_step_lb_sign_extends :
    (after (withWord (stateAt 0x80220003 [(1, 0x80001000)]) 0x1000 0x80FF7F01)).reg 2 = 0xFFFFFF80 := by decide
theorem test_step_lb_byte_order :
    (after (withWord (stateAt 0x80220001 [(1, 0x80001000)]) 0x1000 0x80FF7F01)).reg 2 = 0x7F := by decide
theorem test_step_lw_address_wraps :
    (after (withWord (stateAt 0x8C220008 [(1, 0xFFFFFFFC)]) 0x4 0xCAFEF00D)).reg 2 = 0xCAFEF00D := by decide
theorem test_step_sb_one_byte :
    (after (withWord (stateAt 0xA0220002 [(1, 0x80001000), (2, 0x123456AB)]) 0x1000 0x11223344)).mem.readWord 0x1000 = 0x11AB3344 := by decide
theorem test_step_sb_zero_keeps_form :
    (after (withWord (stateAt 0xA0200000 [(1, 0x80001000)]) 0x1000 0x11223344)).mem.readWord 0x1000 = 0x11223300 ∧
    (after (withWord (stateAt 0xA0200000 [(1, 0x80001000)]) 0x1000 0x11223344)).mem.wf = true := by decide
theorem test_step_sw_little_endian :
    (after (stateAt 0xAC220004 [(1, 0x80001000), (2, 0xDEADBEEF)])).mem.read 0x1004 = 0xEF ∧
    (after (stateAt 0xAC220004 [(1, 0x80001000), (2, 0xDEADBEEF)])).mem.read 0x1007 = 0xDE := by decide
theorem test_step_sw_through_an_alias :
    (after (stateAt 0xAC220000 [(1, 0xA0001000), (2, 0xDEADBEEF)])).mem.readWord 0x1000 = 0xDEADBEEF := by decide

/-! ## Faults (95_test_vectors.md section 2.8), delay slots (2.5), regions (2.6) -/

theorem test_step_fault_keeps_everything :
    (after (stateAt 0x00221820 [(1, 0x7FFFFFFF), (2, 0x1), (3, 0xDEAD0003)])).status = .fault (.integerOverflow 0x80000100) ∧
    (after (stateAt 0x00221820 [(1, 0x7FFFFFFF), (2, 0x1), (3, 0xDEAD0003)])).reg 3 = 0xDEAD0003 ∧
    (after (stateAt 0x00221820 [(1, 0x7FFFFFFF), (2, 0x1), (3, 0xDEAD0003)])).pc = 0x80000100 := by decide
theorem test_step_add_to_zero_overflows :
    (after (stateAt 0x00220020 [(1, 0x7FFFFFFF), (2, 0x1)])).status = .fault (.integerOverflow 0x80000100) := by decide
theorem test_step_lw_misaligned :
    (after (stateAt 0x8C220001 [(1, 0x80001000)])).status = .fault (.addressError .load 0x80001001) := by decide
theorem test_step_sw_misaligned :
    (after (stateAt 0xAC220002 [(1, 0x80001000)])).status = .fault (.addressError .store 0x80001002) := by decide
theorem test_step_fetch_misaligned :
    (after (stateAt 0x0000000C [] (pc := 0x80000202))).status = .fault (.addressError .fetch 0x80000202) := by decide
theorem test_step_reserved_word :
    (after (stateAt 0x0000000C [])).status = .fault (.reservedInstruction 0x0000000C) := by decide
theorem test_step_reserved_before_delay_slot_check :
    (after (stateAt 0x0000000D [] (pending := some 0x80000110))).status = .fault (.reservedInstruction 0x0000000D) := by decide
theorem test_step_branch_in_slot :
    (after (stateAt 0x10000005 [] (pending := some 0x80000110))).status = .fault (.controlTransferInDelaySlot 0x80000100) ∧
    (after (stateAt 0x10000005 [] (pending := some 0x80000110))).pending = some 0x80000110 := by decide
theorem test_step_slot_then_target :
    (after (stateAt 0x24210001 [(1, 0x5)] (pending := some 0x80000110))).reg 1 = 6 ∧
    (after (stateAt 0x24210001 [(1, 0x5)] (pending := some 0x80000110))).pc = 0x80000110 ∧
    (after (stateAt 0x24210001 [(1, 0x5)] (pending := some 0x80000110))).pending = none := by decide
theorem test_step_pc_wraps : (after (stateAt 0x00000000 [] (pc := 0xFFFFFFFC))).pc = 0 := by decide
theorem test_step_store_to_text :
    (after (stateAt 0xAC220000 [(1, 0x80000100)] (cfg := windows))).status = .fault (.storeToText 0x80000100) := by decide
theorem test_step_load_unmapped :
    (after (stateAt 0x8C220000 [(1, 0x98000000)] (cfg := windows))).status = .fault (.unmapped .load 0x98000000) := by decide
theorem test_step_store_unmapped :
    (after (stateAt 0xA0220000 [(1, 0x980000FF)] (cfg := windows))).status = .fault (.unmapped .store 0x980000FF) := by decide
theorem test_step_fetch_from_device :
    (after (stateAt 0x00000000 [] (pc := 0x90000000) (cfg := windows))).status = .fault (.unmapped .fetch 0x90000000) := by decide
theorem test_step_device_read_draws :
    (after (stateAt 0x8C200000 [(1, 0x90000000)] (cfg := windows))).reg 0 = 0 ∧
    (after (stateAt 0x8C200000 [(1, 0x90000000)] (cfg := windows))).draws = 1 ∧
    (after (stateAt 0x8C200000 [(1, 0x90000000)] (cfg := windows))).status = .running := by decide
theorem test_step_device_write_is_an_output :
    (after (stateAt 0xAC220000 [(1, 0x90000004), (2, 0xDEADBEEF)] (cfg := windows))).outputs = [.word 0x10000004 0xDEADBEEF] ∧
    (after (stateAt 0xAC220000 [(1, 0x90000004), (2, 0xDEADBEEF)] (cfg := windows))).mem.readWord 0x10000004 = 0 := by decide

/-- Two steps: the jump's target is read before its slot writes the register (95_test_vectors.md section 2.5). -/
theorem test_step_slot_after_the_target_is_read :
    (after (after (withWord (stateAt 0x00200008 [(1, 0x80000200)]) 0x104 0x34010000))).pc = 0x80000200 := by decide

/-- A run ends before the word at `END_PC`, here a reserved one, is fetched (R244). -/
theorem test_run_ends_before_fetching :
    (runToEnd 0 (stateAt 0x0000000C [] (cfg := { Config.default with endPc := some 0x80000100 }))).safe = true := by decide

/-- The launch of P4's first instruction: program words placed from physical 0, `TEXT` grown by their bytes (R243, R49). -/
theorem test_launch_with_program :
    (after (State.launch (Launch.default.withProgram 0 [0x3C017FFF, 0x3421FFFF]))).reg 1 = 0x7FFF0000 ∧
    (Launch.default.withProgram 0 [0x3C017FFF, 0x3421FFFF]).cfg.text = [⟨0, 8⟩] := by decide

/-! ## Witnesses: for each statement with hypotheses, a case that meets all of them -/

theorem witness_EncodeOfDecode : decodeWord 0xAC220004 = .ok (.sw 2 4 1) := by decide

theorem witness_DecoderAgreesWithTable :
    (⟨.add, 0x00000020, 0xFC0007FF⟩ : OpcodeRow) ∈ opcodeTable ∧ (0x00221820 : Word) &&& 0xFC0007FF = 0x00000020 ∧
    (∀ r ∈ opcodeTable, (0x0000000C : Word) &&& r.mask ≠ r.bits) ∧ decodeIn .c1 0x34000000 = .ok (.ori 0 0 0) := by decide

/-- One value of each must-be-zero field, and that the encoder's zero there is accepted. -/
theorem witness_MustBeZeroFieldsAreChecked :
    (1 : BitVec 5) ≠ 0 ∧ decodeWord (rType 0 1 2 3 1 0x20) = .error (.nonZeroField .add) ∧
    decodeWord (rType 0 1 2 3 0 0x20) = .ok (.add 3 1 2) ∧
    ¬ ((0 : BitVec 5) = 0 ∧ (0 : BitVec 5) = 0 ∧ (16 : BitVec 5) = 0) ∧ ¬ ((0 : BitVec 5) = 0 ∧ (16 : BitVec 5) = 0) := by decide

theorem witness_FaultedMachineTakesNoStep :
    (State.reset.raised (.integerOverflow 0)).status = .fault (.integerOverflow 0) := rfl

/-- A step that ends in a fault, and one that leaves the machine running. -/
theorem witness_FaultsArePrecise :
    (stateAt 0x0000000C []).status = .running ∧
    step (stateAt 0x0000000C []) = .next (after (stateAt 0x0000000C [])) ∧
    (after (stateAt 0x0000000C [])).status = .fault (.reservedInstruction 0x0000000C) ∧
    step (stateAt 0 []) = .next (after (stateAt 0 [])) ∧ (after (stateAt 0 [])).status = .running :=
  ⟨by decide, rfl, by decide, rfl, by decide⟩

theorem witness_EveryRunningStateSteps : State.reset.status = .running := rfl

/-- Each cause an instruction can raise is raised by one. -/
theorem witness_CausesBelongToTheirInstructions :
    exec (.add 3 1 2) (stateAt 0 [(1, 0x7FFFFFFF), (2, 1)]) =
      .next ((stateAt 0 [(1, 0x7FFFFFFF), (2, 1)]).raised (.integerOverflow 0x80000100)) ∧
    exec (.lw 2 1 1) (stateAt 0 []) = .next ((stateAt 0 []).raised (.addressError .load 1)) ∧
    exec (.sw 2 1 1) (stateAt 0 []) = .next ((stateAt 0 []).raised (.addressError .store 1)) ∧
    exec (.j 0) (stateAt 0 [] (pending := some 4)) =
      .next ((stateAt 0 [] (pending := some 4)).raised (.controlTransferInDelaySlot 0x80000100)) ∧
    exec (.sb 2 0x100 0) (stateAt 0 [] (cfg := windows)) =
      .next ((stateAt 0 [] (cfg := windows)).raised (.storeToText 0x100)) ∧
    exec (.lb 2 0 1) (stateAt 0 [(1, 0x98000000)] (cfg := windows)) =
      .next ((stateAt 0 [(1, 0x98000000)] (cfg := windows)).raised (.unmapped .load 0x98000000)) ∧
    exec (.sw 2 0 1) (stateAt 0 [(1, 0x98000000)] (cfg := windows)) =
      .next ((stateAt 0 [(1, 0x98000000)] (cfg := windows)).raised (.unmapped .store 0x98000000)) :=
  ⟨rfl, rfl, rfl, rfl, rfl, rfl, rfl⟩

/-- The conditions under which a step runs the decoded instruction; also those of the two clauses of `FaultPriority` with
a word that decodes. -/
theorem witness_StepRunsTheDecodedInstruction :
    (stateAt 0x00221820 []).status = .running ∧ (stateAt 0x00221820 []).pc.toNat % 4 = 0 ∧
    (∀ k < 4, regionOf (stateAt 0x00221820 []).cfg (physAddr (stateAt 0x00221820 []).cfg (stateAt 0x00221820 []).pc + k) = .ram) ∧
    decodeIn (stateAt 0x00221820 []).cfg.profile
      ((stateAt 0x00221820 []).mem.read 0x103 ++ (stateAt 0x00221820 []).mem.read 0x102 ++
        (stateAt 0x00221820 []).mem.read 0x101 ++ (stateAt 0x00221820 []).mem.read 0x100) = .ok (.add 3 1 2) ∧
    physAddr (stateAt 0x00221820 []).cfg (stateAt 0x00221820 []).pc = 0x100 := by decide

theorem witness_MisalignedTargetFaultsAtTheFetch :
    (stateAt 0 [(1, 0x80000202)]).status = .running ∧ (stateAt 0 [(1, 0x80000202)]).pending = none ∧
    ((stateAt 0 [(1, 0x80000202)]).reg 1).toNat % 4 ≠ 0 ∧
    exec (.jr 1) (stateAt 0 [(1, 0x80000202)]) = .next (ran (.jr 1) (stateAt 0 [(1, 0x80000202)])) ∧
    exec (.sll 0 0 0) (ran (.jr 1) (stateAt 0 [(1, 0x80000202)])) =
      .next (ran (.sll 0 0 0) (ran (.jr 1) (stateAt 0 [(1, 0x80000202)]))) ∧
    (ran (.sll 0 0 0) (ran (.jr 1) (stateAt 0 [(1, 0x80000202)]))).status = .running :=
  ⟨by decide, by decide, by decide, rfl, rfl, by decide⟩

/-- A word outside the table, and one outside a profile. -/
theorem witness_ReservedWordFaults :
    (stateAt 0x0000000C []).status = .running ∧ (stateAt 0x0000000C []).pc.toNat % 4 = 0 ∧
    (∀ k < 4, regionOf Config.default (0x100 + k) = .ram) ∧ (stateAt 0x0000000C []).mem.readWord 0x100 = 0x0000000C ∧
    (∀ r ∈ opcodeTable, r.mnemonic ∈ Profile.full34.mnemonics → (0x0000000C : Word) &&& r.mask ≠ r.bits) ∧
    (∀ r ∈ opcodeTable, r.mnemonic ∈ Profile.c1.mnemonics → (0x00221820 : Word) &&& r.mask ≠ r.bits) := by decide

/-- Each clause of the priority order, at the boundary of its condition. -/
theorem witness_FaultPriority :
    (stateAt 0 [] (pc := 0x80000101)).pc.toNat % 4 ≠ 0 ∧
    ¬ (∀ k < 4, regionOf windows (physAddr windows 0x98000000 + k) = .ram) ∧
    ¬ (∀ k < 4, regionOf windows (physAddr windows 0x900000FC + k) = .ram) ∧
    decodeIn Config.default.profile ((stateAt 0x0000000C []).mem.readWord 0x100) = .error (.reservedFunct 0x0C) ∧
    decodeIn Config.default.profile ((stateAt 0x08000040 []).mem.readWord 0x100) = .ok (.j 0x40) ∧
    (stateAt 0x08000040 [] (pending := some 0)).pending ≠ none ∧
    (2 ^ 31 - 1 < (0x7FFFFFFF : Word).toInt + (1 : Word).toInt ∧ (0x80000000 : Word).toInt - (1 : Word).toInt < -2 ^ 31) ∧
    (effectiveAddr 0x80001000 3).toNat % 4 ≠ 0 ∧
    (effectiveAddr 0x98000000 0).toNat % 4 = 0 ∧ (∃ k < 4, regionOf windows (physAddr windows 0x98000000 + k) = .nothing) ∧
    (∀ k < 4, regionOf windows (physAddr windows 0x80000100 + k) ≠ .nothing) ∧
    (∃ k < 4, inText windows (physAddr windows 0x80000100 + k) = true) ∧
    inText windows (physAddr windows 0x80000103) = true ∧ inText windows (physAddr windows 0x80000104) = false := by decide

/-- The largest sums and differences that fit and the smallest that do not. -/
theorem witness_AddAndSub :
    ((0x7FFFFFFE : Word).toInt + (1 : Word).toInt ≤ 2 ^ 31 - 1 ∧ -2 ^ 31 ≤ (0x80000001 : Word).toInt + (0xFFFFFFFF : Word).toInt) ∧
    (2 ^ 31 - 1 < (0x7FFFFFFF : Word).toInt + (1 : Word).toInt ∧ (0x80000000 : Word).toInt + (0xFFFFFFFF : Word).toInt < -2 ^ 31) ∧
    ((0x7FFFFFFE : Word).toInt - (0xFFFFFFFF : Word).toInt ≤ 2 ^ 31 - 1 ∧ -2 ^ 31 ≤ (0x80000001 : Word).toInt - (1 : Word).toInt) ∧
    (2 ^ 31 - 1 < (0 : Word).toInt - (0x80000000 : Word).toInt ∧ (0x80000000 : Word).toInt - (1 : Word).toInt < -2 ^ 31) := by decide

theorem witness_AddImmediate :
    ((0x7FFF8000 : Word).toInt + (0x7FFF : BitVec 16).toInt ≤ 2 ^ 31 - 1 ∧ -2 ^ 31 ≤ (0x80008000 : Word).toInt + (0x8000 : BitVec 16).toInt) ∧
    (2 ^ 31 - 1 < (0x7FFF8001 : Word).toInt + (0x7FFF : BitVec 16).toInt ∧
      (0x80007FFF : Word).toInt + (0x8000 : BitVec 16).toInt < -2 ^ 31) := by decide

/-- Outside a delay slot: the premise of the statements about branches and jumps. -/
theorem witness_BranchOnEquality : (stateAt 0x10220003 [(1, 5), (2, 5)]).pending = none := by decide
theorem witness_BranchOnSign : (stateAt 0x04210010 []).pending = none := by decide
theorem witness_RegisterJumps : (stateAt 0x00A02809 [(5, 0x80000200)]).pending = none := by decide

/-- The target of J 0x40 at 0x8FFFFFFC is in the region of its slot. -/
theorem witness_DirectJumps :
    (0x90000100 : Word).toNat = ((stateAt 0 [] (pc := 0x8FFFFFFC)).pc + 4).toNat / 2 ^ 28 * 2 ^ 28 + 4 * (0x40 : BitVec 26).toNat ∧
    (stateAt 0 [] (pc := 0x8FFFFFFC)).pending = none := by decide

theorem witness_ControlTransferInDelaySlotFaults :
    (Instr.jal 0x40).isControlTransfer = true ∧ (stateAt 0 [] (pending := some 0x80000108)).pending ≠ none := by decide

/-- Outside and inside a delay slot. -/
theorem witness_PcAdvance :
    (stateAt 0 []).status = .running ∧ exec (.addu 3 1 2) (stateAt 0 []) = .next (ran (.addu 3 1 2) (stateAt 0 [])) ∧
    (ran (.addu 3 1 2) (stateAt 0 [])).status = .running ∧ (stateAt 0 []).pending = none ∧
    exec (.addu 3 1 2) (stateAt 0 [] (pending := some 8)) = .next (ran (.addu 3 1 2) (stateAt 0 [] (pending := some 8))) ∧
    (ran (.addu 3 1 2) (stateAt 0 [] (pending := some 8))).status = .running ∧
    (stateAt 0 [] (pending := some 8)).pending = some 8 :=
  ⟨by decide, rfl, by decide, by decide, rfl, by decide, by decide⟩

/-- A not-taken branch completes, and so does an instruction that is none. -/
theorem witness_OnlyControlTransfersSetPending :
    exec (.bne 0 0 3) (stateAt 0 []) = .next (ran (.bne 0 0 3) (stateAt 0 [])) ∧
    (ran (.bne 0 0 3) (stateAt 0 [])).status = .running ∧
    exec (.sb 0 0 0) (stateAt 0 []) = .next (ran (.sb 0 0 0) (stateAt 0 [])) ∧
    (ran (.sb 0 0 0) (stateAt 0 [])).status = .running :=
  ⟨rfl, by decide, rfl, by decide⟩

theorem witness_DelaySlotRunsBeforeTheTarget :
    (Instr.jal 0x40).isControlTransfer = true ∧ (stateAt 0 []).status = .running ∧
    exec (.jal 0x40) (stateAt 0 []) = .next (ran (.jal 0x40) (stateAt 0 [])) ∧
    (ran (.jal 0x40) (stateAt 0 [])).status = .running ∧
    exec (.ori 31 0 7) (ran (.jal 0x40) (stateAt 0 [])) = .next (ran (.ori 31 0 7) (ran (.jal 0x40) (stateAt 0 []))) ∧
    (ran (.ori 31 0 7) (ran (.jal 0x40) (stateAt 0 []))).status = .running :=
  ⟨by decide, by decide, rfl, by decide, rfl, by decide⟩

/-- For JR, for JALR and in a delay slot. -/
theorem witness_PcStaysAligned :
    ((stateAt 0 [(1, 0x80000200)]).reg 1).toNat % 4 = 0 ∧
    exec (.jr 1) (stateAt 0 [(1, 0x80000200)]) = .next (ran (.jr 1) (stateAt 0 [(1, 0x80000200)])) ∧
    exec (.jalr 1 1) (stateAt 0 [(1, 0x80000200)]) = .next (ran (.jalr 1 1) (stateAt 0 [(1, 0x80000200)])) ∧
    (stateAt 0 [(1, 0x80000200)]).pc.toNat % 4 = 0 ∧
    (∀ a, (stateAt 0 [] (pending := some 0xFFFFFFFC)).pending = some a → a.toNat % 4 = 0) :=
  ⟨by decide, rfl, rfl, by decide, by rintro a ⟨⟩; decide⟩

/-- The address just below and just above an aligned one; a byte access that completes. -/
theorem witness_DataAlignment :
    (effectiveAddr 0x80001000 0xFFFF).toNat % 4 ≠ 0 ∧ (effectiveAddr 0x80001000 1).toNat % 4 ≠ 0 ∧
    (stateAt 0 []).status = .running ∧ exec (.lb 2 1 1) (stateAt 0 []) = .next (ran (.lb 2 1 1) (stateAt 0 [])) ∧
    exec (.sb 2 1 1) (stateAt 0 []) = .next (ran (.sb 2 1 1) (stateAt 0 [])) :=
  ⟨by decide, by decide, by decide, rfl, rfl⟩

/-- RAM, device and nothing, each at the edge of its window. -/
theorem witness_LoadByte :
    effectiveAddr ((stateAt 0 [(1, 0x80001003)]).reg 1) 0xFFFF = 0x80001002 ∧
    regionOf windows (physAddr windows 0x80001002) = .ram ∧ regionOf windows (physAddr windows 0x8FFFFFFF) = .ram ∧
    regionOf windows (physAddr windows 0x90000000) = .device ∧ regionOf windows (physAddr windows 0x900000FF) = .device ∧
    regionOf windows (physAddr windows 0x98000000) = .nothing ∧ regionOf windows (physAddr windows 0x980000FF) = .nothing := by
  decide

theorem witness_LoadWord :
    (effectiveAddr 0x80001000 2).toNat % 4 ≠ 0 ∧ (effectiveAddr 0x80001000 4).toNat % 4 = 0 ∧
    (∀ k < 4, regionOf windows (physAddr windows 0x80001004 + k) ≠ .nothing) ∧
    regionOf windows (physAddr windows 0x80001004) = .ram ∧
    (∀ k < 4, regionOf windows (physAddr windows 0x900000FC + k) ≠ .nothing) ∧
    regionOf windows (physAddr windows 0x900000FC) = .device ∧
    (∃ k < 4, regionOf windows (physAddr windows 0x980000FC + k) = .nothing) := by decide

theorem witness_StoreByte :
    (0xAB : Byte).toNat = ((stateAt 0 [(2, 0x123456AB)]).reg 2).toNat % 256 ∧
    (regionOf windows (physAddr windows 0x80000104) = .ram ∧ inText windows (physAddr windows 0x80000104) = false) ∧
    (regionOf windows (physAddr windows 0x900000FF) = .device ∧ inText windows (physAddr windows 0x900000FF) = false) ∧
    regionOf windows (physAddr windows 0x980000FF) = .nothing ∧
    (regionOf windows (physAddr windows 0x80000103) ≠ .nothing ∧ inText windows (physAddr windows 0x80000103) = true) := by decide

theorem witness_StoreWord :
    (effectiveAddr 0x80000100 0xFFFF).toNat % 4 ≠ 0 ∧ (effectiveAddr 0x80000100 4).toNat % 4 = 0 ∧
    (∀ k < 4, regionOf windows (physAddr windows 0x80000104 + k) ≠ .nothing) ∧
    (∀ k < 4, inText windows (physAddr windows 0x80000104 + k) = false) ∧
    regionOf windows (physAddr windows 0x80000104) = .ram ∧
    ((∀ k < 4, regionOf windows (physAddr windows 0x900000FC + k) ≠ .nothing) ∧
      (∀ k < 4, inText windows (physAddr windows 0x900000FC + k) = false) ∧
      regionOf windows (physAddr windows 0x900000FC) = .device) ∧
    (∃ k < 4, regionOf windows (physAddr windows 0x980000FC + k) = .nothing) ∧
    ((∀ k < 4, regionOf windows (physAddr windows 0x80000100 + k) ≠ .nothing) ∧
      ∃ k < 4, inText windows (physAddr windows 0x80000100 + k) = true) := by decide

/-- A word stored through kseg1 and loaded through kuseg, and its last byte; a byte stored as the last of a word. -/
theorem witness_LoadSeesTheLatestStore :
    (3 : RegNum) ≠ 0 ∧ effectiveAddr ((stateAt 0 [(1, 0xA0001000)]).reg 1) 4 = 0xA0001004 ∧
    effectiveAddr ((stateAt 0 [(1, 0xA0001000)]).reg 0) 0x1004 = 0x1004 ∧ (0xA0001004 : Word).toNat % 4 = 0 ∧
    (0x1004 : Word).toNat % 4 = 0 ∧ physAddr Config.default 0x1004 = physAddr Config.default 0xA0001004 ∧
    physAddr Config.default 0x1007 = physAddr Config.default 0xA0001004 + 3 ∧
    physAddr Config.default 0xA0001007 = physAddr Config.default 0x1004 + 3 ∧
    (∀ k < 4, regionOf Config.default (physAddr Config.default 0xA0001004 + k) = .ram) ∧
    (∀ k < 4, inText Config.default (physAddr Config.default 0xA0001004 + k) = false) := by decide

theorem witness_TranslationIsFixedAndLinear : Config.default.segmap.wellFormed = true := by decide

/-- The last aligned word of a segment. -/
theorem witness_AlignedWordStaysInOneSegment :
    Config.default.segmap.wellFormed = true ∧ (0x9FFFFFFC : Word).toNat % 4 = 0 ∧
    physAddr Config.default 0x9FFFFFFC = 0x1FFFFFFC := by decide

/-- The first and the last byte that three segments share, and the first that kseg0 does not. -/
theorem witness_DefaultMapAliases :
    0 < 0x20000000 ∧ 0x1FFFFFFF < 0x20000000 ∧ physAddr Config.default 0x9FFFFFFF = 0x1FFFFFFF ∧
    physAddr Config.default 0xC0000000 = 0xC0000000 := by decide

theorem witness_OnlyStoresWriteMemory :
    (Instr.lw 2 8 1).isStore = false ∧ exec (.lw 2 8 1) (stateAt 0 []) = .next (ran (.lw 2 8 1) (stateAt 0 [])) :=
  ⟨by decide, rfl⟩

/-- A store that misses `TEXT` by one byte. -/
theorem witness_TextNeverChanges :
    inText (stateAt 0xA0220000 [(1, 0x80000104)] (cfg := windows)).cfg 0x103 = true ∧
    step (stateAt 0xA0220000 [(1, 0x80000104)] (cfg := windows)) =
      .next (after (stateAt 0xA0220000 [(1, 0x80000104)] (cfg := windows))) ∧
    (after (stateAt 0xA0220000 [(1, 0x80000104)] (cfg := windows))).status = .running :=
  ⟨by decide, rfl, by decide⟩

theorem witness_StepKeepsMemoryCanonical :
    (stateAt 0xAC220004 [(1, 0x80001000), (2, 0xDEADBEEF)]).mem.wf = true ∧
    step (stateAt 0xAC220004 [(1, 0x80001000), (2, 0xDEADBEEF)]) =
      .next (after (stateAt 0xAC220004 [(1, 0x80001000), (2, 0xDEADBEEF)])) := ⟨by decide, rfl⟩

theorem witness_ConfigurationIsFixed : step (stateAt 0 []) = .next (after (stateAt 0 [])) := rfl

/-- No device access, a read, a write. -/
theorem witness_OneDeviceAccessPerStep :
    step (stateAt 0 []) = .next (after (stateAt 0 [])) ∧
    step (stateAt 0x8C200000 [(1, 0x90000000)] (cfg := windows)) =
      .next (after (stateAt 0x8C200000 [(1, 0x90000000)] (cfg := windows))) ∧
    step (stateAt 0xA0220000 [(1, 0x90000000)] (cfg := windows)) =
      .next (after (stateAt 0xA0220000 [(1, 0x90000000)] (cfg := windows))) := ⟨rfl, rfl, rfl⟩

theorem witness_OnlyTheNamedRegisterIsWritten :
    (Instr.jal 0x40).writes ≠ some 30 ∧ (Instr.sw 2 0 1).writes ≠ some 2 ∧
    exec (.jal 0x40) (stateAt 0 []) = .next (ran (.jal 0x40) (stateAt 0 [])) := ⟨by decide, by decide, rfl⟩

/-- The destination is no register read, nor is r31 for JAL. -/
theorem witness_UnreadRegistersDoNotMatter :
    (3 : RegNum) ∉ (Instr.add 3 1 2).reads ∧ (31 : RegNum) ∉ (Instr.jal 0).reads ∧ (1 : RegNum) ∈ (Instr.sw 2 0 1).reads := by
  decide

/-- Overflow of both signs in the sum, the difference and the immediate sum; an instruction with destination 0. -/
theorem witness_RegisterZero :
    (2 ^ 31 - 1 < (0x7FFFFFFF : Word).toInt + (1 : Word).toInt ∧ (0x80000000 : Word).toInt + (0xFFFFFFFF : Word).toInt < -2 ^ 31) ∧
    (2 ^ 31 - 1 < (0 : Word).toInt - (0x80000000 : Word).toInt ∧ (0x80000000 : Word).toInt - (1 : Word).toInt < -2 ^ 31) ∧
    (2 ^ 31 - 1 < (0x7FFFFFFF : Word).toInt + (1 : BitVec 16).toInt ∧ (0x80000000 : Word).toInt + (0xFFFF : BitVec 16).toInt < -2 ^ 31) ∧
    (Instr.lw 0 0 1).writes = some 0 ∧ exec (.lw 0 0 1) (stateAt 0 []) = .next (ran (.lw 0 0 1) (stateAt 0 [])) :=
  ⟨by decide, by decide, by decide, by decide, rfl⟩

theorem witness_RunEndsBeforeFetchingAtEndPc :
    (stateAt 0 [] (cfg := { Config.default with endPc := some 0x80000100 })).status = .running ∧
    (stateAt 0 [] (cfg := { Config.default with endPc := some 0x80000100 })).cfg.endPc = some 0x80000100 ∧
    (stateAt 0 [] (cfg := { Config.default with endPc := some 0x80000100 })).pending = none := by decide

end Sys2Proof.Tests
end

section
/-! The instruction sets of the profiles (R5): C3 has 22 of the 34 instructions, and the other 12 are the random picks
of C2. -/

namespace Sys2Proof

@[simp] theorem Instr.wellFormed_iff (p : Profile) (i : Instr) : i.wellFormed p = true ↔ i.mnemonic ∈ p.mnemonics :=
  decide_eq_true_iff

theorem Mnemonic.mem_full34 (m : Mnemonic) : m ∈ Profile.full34.mnemonics := by
  cases m <;> decide

theorem C2Arith.mnemonic_mem_c2 (a : C2Arith) (s : C2Shift) (b : C2Branch) :
    a.mnemonic ∈ (Profile.c2 a s b).mnemonics := by
  simp [Profile.mnemonics]

theorem C2Shift.mnemonic_mem_c2 (a : C2Arith) (s : C2Shift) (b : C2Branch) :
    s.mnemonic ∈ (Profile.c2 a s b).mnemonics := by
  simp [Profile.mnemonics]

theorem C2Branch.mnemonic_mem_c2 (a : C2Arith) (s : C2Shift) (b : C2Branch) :
    b.mnemonic ∈ (Profile.c2 a s b).mnemonics := by
  simp [Profile.mnemonics]

/-- What C3 leaves out, C2 can pick. -/
theorem Mnemonic.mem_c3_or_c2Pick (m : Mnemonic) :
    m ∈ Profile.c3.mnemonics ∨ (∃ a : C2Arith, a.mnemonic = m) ∨ (∃ s : C2Shift, s.mnemonic = m) ∨
      (∃ b : C2Branch, b.mnemonic = m) := by
  cases m
  case add => exact .inr (.inl ⟨.add, rfl⟩)
  case addi => exact .inr (.inl ⟨.addi, rfl⟩)
  case sub => exact .inr (.inl ⟨.sub, rfl⟩)
  case slt => exact .inr (.inl ⟨.slt, rfl⟩)
  case sllv => exact .inr (.inr (.inl ⟨.sllv, rfl⟩))
  case srav => exact .inr (.inr (.inl ⟨.srav, rfl⟩))
  case sra => exact .inr (.inr (.inl ⟨.sra, rfl⟩))
  case srlv => exact .inr (.inr (.inl ⟨.srlv, rfl⟩))
  case jalr => exact .inr (.inr (.inr ⟨.jalr, rfl⟩))
  case bgez => exact .inr (.inr (.inr ⟨.bgez, rfl⟩))
  case blez => exact .inr (.inr (.inr ⟨.blez, rfl⟩))
  case bltz => exact .inr (.inr (.inr ⟨.bltz, rfl⟩))
  all_goals exact .inl (by decide)

/-- The picks of the other two classes do not matter: any choice with the right pick will do. -/
theorem Mnemonic.mem_c3_or_mem_c2 (m : Mnemonic) :
    m ∈ Profile.c3.mnemonics ∨ ∃ a s b, m ∈ (Profile.c2 a s b).mnemonics := by
  obtain h | ⟨a, rfl⟩ | ⟨s, rfl⟩ | ⟨b, rfl⟩ := m.mem_c3_or_c2Pick
  · exact .inl h
  · exact .inr ⟨a, .sllv, .jalr, a.mnemonic_mem_c2 _ _⟩
  · exact .inr ⟨.add, s, .jalr, s.mnemonic_mem_c2 _ _⟩
  · exact .inr ⟨.add, .sllv, b, b.mnemonic_mem_c2 _ _⟩

/-- Settles O6: C3 and the C2 choices alone already give every instruction (C1 is part of C3). -/
theorem profilesCoverTheFullSet : Obligations.ProfilesCoverTheFullSet := by
  intro i
  simp only [Instr.wellFormed_iff]
  refine ⟨i.mnemonic.mem_full34, ?_⟩
  obtain hc3 | hc2 := i.mnemonic.mem_c3_or_mem_c2
  · exact .inr (.inr hc3)
  · exact .inr (.inl hc2)

end Sys2Proof
end

section
/-! What an instruction that answered a next state has done: the inversion of `exec` as a hypothesis, and what each of
its endings changes and leaves (R11 to R16). -/

namespace Sys2Proof.Machine

/-- Every instruction has a meaning in every state (R22). -/
theorem exec_next (i : Instr) (s : State) : ∃ t, exec i s = .next t := by
  obtain ⟨c, h⟩ | ⟨-, t, h, -⟩ | ⟨-, -, t, h, -⟩ := exec_cases i s
  · exact ⟨_, h⟩
  · exact ⟨t, h⟩
  · exact ⟨t, h⟩

/-- `exec_cases` read from the state an instruction led to. -/
theorem exec_inv {i : Instr} {s t : State} (h : exec i s = .next t) :
    (∃ c, t = s.raised c) ∨ (i.isControlTransfer = false ∧ Completed i s t) ∨
      (i.isControlTransfer = true ∧ s.pending = none ∧ Transferred i s t) := by
  obtain ⟨c, h'⟩ | ⟨hi, t', h', ht⟩ | ⟨hi, hp, t', h', ht⟩ := exec_cases i s <;>
    obtain rfl : t = _ := Host.Outcome.next.inj (h.symm.trans h')
  · exact .inl ⟨c, rfl⟩
  · exact .inr (.inl ⟨hi, ht⟩)
  · exact .inr (.inr ⟨hi, hp, ht⟩)

/-- An instruction that leaves the machine running has not raised. -/
theorem exec_inv_running {i : Instr} {s t : State} (h : exec i s = .next t) (hr : t.status = .running) :
    (i.isControlTransfer = false ∧ Completed i s t) ∨
      (i.isControlTransfer = true ∧ s.pending = none ∧ Transferred i s t) := by
  obtain ⟨c, rfl⟩ | hc := exec_inv h
  · cases hr
  · exact hc

/-! ## Control, registers and configuration after each ending -/

theorem Completed.goesOn {i : Instr} {s t : State} (h : Completed i s t) : GoesOn s t := by
  cases h <;> exact goesOn_advance _

theorem Completed.cfg {i : Instr} {s t : State} (h : Completed i s t) : t.cfg = s.cfg := by
  cases h <;> rfl

theorem ne_of_not_writes {i : Instr} {r rd : RegNum} (hr : i.writes ≠ some r) (hw : i.writes = some rd) : r ≠ rd := by
  rintro rfl
  exact hr hw

theorem Completed.reg_of_not_writes {i : Instr} {s t : State} {r : RegNum} (h : Completed i s t)
    (hr : i.writes ≠ some r) : t.reg r = s.reg r := by
  cases h with
  | wrote rd v hw => exact s.setReg_reg_other (ne_of_not_writes hr hw) v
  | drew rd v hw => exact s.drawn.setReg_reg_other (ne_of_not_writes hr hw) v
  | storedByte => rfl
  | storedWord => rfl
  | emitted => rfl

theorem Transferred.delays {i : Instr} {s t : State} (h : Transferred i s t) : ∃ a, Delays s t a := by
  cases h with
  | plain a => exact ⟨a, rfl, rfl⟩
  | linked rd a => exact ⟨a, rfl, rfl⟩

theorem Transferred.cfg {i : Instr} {s t : State} (h : Transferred i s t) : t.cfg = s.cfg := by
  cases h <;> rfl

theorem Transferred.reg_of_not_writes {i : Instr} {s t : State} {r : RegNum} (h : Transferred i s t)
    (hr : i.writes ≠ some r) : t.reg r = s.reg r := by
  cases h with
  | plain => rfl
  | linked rd a hw => exact s.setReg_reg_other (ne_of_not_writes hr hw) _

/-! ## The same over `exec` -/

theorem exec_cfg {i : Instr} {s t : State} (h : exec i s = .next t) : t.cfg = s.cfg := by
  obtain ⟨c, rfl⟩ | ⟨-, ht⟩ | ⟨-, -, ht⟩ := exec_inv h
  · rfl
  · exact ht.cfg
  · exact ht.cfg

theorem exec_reg_of_not_writes {i : Instr} {s t : State} {r : RegNum} (h : exec i s = .next t)
    (hr : i.writes ≠ some r) : t.reg r = s.reg r := by
  obtain ⟨c, rfl⟩ | ⟨-, ht⟩ | ⟨-, -, ht⟩ := exec_inv h
  · rfl
  · exact ht.reg_of_not_writes hr
  · exact ht.reg_of_not_writes hr

end Sys2Proof.Machine
end

section
/-! Two runs of one instruction that differ in one register (R13): states that agree but for register `q` are taken by
every operation to states that agree but for `q`, so an instruction that does not read `q` cannot tell them apart. -/

namespace Sys2Proof.Machine

/-- The two states differ in register `q` at most. -/
structure AgreeBut (q : RegNum) (s s' : State) : Prop where
  pc      : s'.pc = s.pc
  pending : s'.pending = s.pending
  mem     : s'.mem = s.mem
  status  : s'.status = s.status
  draws   : s'.draws = s.draws
  outputs : s'.outputs = s.outputs
  cfg     : s'.cfg = s.cfg
  regs    : SameRegsBut q s s'

/-- Both outcomes are next states, and they differ in register `q` at most. -/
def NextAgreeBut (q : RegNum) (o o' : Host.Outcome State Fault Refusal) : Prop :=
  ∃ t t', o = .next t ∧ o' = .next t' ∧ AgreeBut q t t'

theorem agreeBut_setReg (s : State) (q : RegNum) (v : Word) : AgreeBut q s (s.setReg q v) :=
  ⟨rfl, rfl, rfl, rfl, rfl, rfl, rfl, fun _ h => s.setReg_reg_other h v⟩

section
variable {q : RegNum} {s s' : State}

/-! ## The updates of the state -/

theorem AgreeBut.setReg (h : AgreeBut q s s') (rd : RegNum) (v : Word) : AgreeBut q (s.setReg rd v) (s'.setReg rd v) where
  __ := h
  regs r hr := by
    obtain rfl | hd := eq_or_ne r rd
    · obtain rfl | h0 := eq_or_ne r 0
      · rfl
      · rw [s'.setReg_reg_same h0, s.setReg_reg_same h0]
    · rw [s'.setReg_reg_other hd, s.setReg_reg_other hd, h.regs r hr]

theorem AgreeBut.raised (h : AgreeBut q s s') (c : Cause) : AgreeBut q (s.raised c) (s'.raised c) :=
  { h with status := rfl }

theorem AgreeBut.advance (h : AgreeBut q s s') : AgreeBut q s.advance s'.advance :=
  { h with
    pc := by rw [State.advance_pc, State.advance_pc, h.pending, h.pc]
    pending := rfl }

theorem AgreeBut.delayed (h : AgreeBut q s s') (a : Word) : AgreeBut q (s.delayed a) (s'.delayed a) :=
  { h with
    pc := by rw [State.delayed_pc, State.delayed_pc, h.pc]
    pending := rfl }

theorem AgreeBut.setMem (h : AgreeBut q s s') (m : Memory) : AgreeBut q (s.setMem m) (s'.setMem m) :=
  { h with mem := rfl }

theorem AgreeBut.drawn (h : AgreeBut q s s') : AgreeBut q s.drawn s'.drawn :=
  { h with draws := by rw [State.drawn_draws, State.drawn_draws, h.draws] }

theorem AgreeBut.emit (h : AgreeBut q s s') (o : DeviceWrite) : AgreeBut q (s.emit o) (s'.emit o) :=
  { h with outputs := by rw [State.emit_outputs, State.emit_outputs, h.outputs] }

/-! ## The endings of the meanings, each under equal operands -/

theorem AgreeBut.takeException (h : AgreeBut q s s') {c c' : Cause} (hc : c' = c) :
    NextAgreeBut q (takeException c s) (takeException c' s') :=
  hc ▸ ⟨_, _, rfl, rfl, h.raised c'⟩

theorem AgreeBut.writeBack (h : AgreeBut q s s') {rd : RegNum} {v v' : Word} (hv : v' = v) :
    NextAgreeBut q (writeBack s rd v) (writeBack s' rd v') :=
  hv ▸ ⟨_, _, rfl, rfl, (h.setReg rd v').advance⟩

theorem AgreeBut.writeUnlessOverflow (h : AgreeBut q s s') {rd : RegNum} {x x' : BitVec 33} (hx : x' = x) :
    NextAgreeBut q (writeUnlessOverflow s rd x) (writeUnlessOverflow s' rd x') := by
  subst hx
  unfold Machine.writeUnlessOverflow
  split
  · exact h.takeException (by rw [h.pc])
  · exact h.writeBack rfl

theorem AgreeBut.transfer (h : AgreeBut q s s') {a a' : Word} (ha : a' = a) :
    NextAgreeBut q (transfer s a) (transfer s' a') := by
  subst ha
  unfold Machine.transfer
  rw [h.pending]
  split
  · exact h.takeException (by rw [h.pc])
  · exact ⟨_, _, rfl, rfl, h.delayed a'⟩

theorem AgreeBut.transferLink (h : AgreeBut q s s') {link : RegNum} {a a' : Word} (ha : a' = a) :
    NextAgreeBut q (transferLink s link a) (transferLink s' link a') := by
  subst ha
  unfold Machine.transferLink
  rw [h.pending, h.pc]
  split
  · exact h.takeException rfl
  · exact ⟨_, _, rfl, rfl, (h.setReg link _).delayed a'⟩

theorem AgreeBut.branch (h : AgreeBut q s s') {b b' : Bool} {offset : BitVec 16} (hb : b' = b) :
    NextAgreeBut q (branch s b offset) (branch s' b' offset) :=
  h.transfer (by rw [hb, h.pc])

/-! ## The access primitives at one address -/

theorem AgreeBut.memReadByte (h : AgreeBut q s s') (va : Word) :
    (∃ c, memReadByte s va = .error c ∧ memReadByte s' va = .error c) ∨
      ∃ b t t', memReadByte s va = .ok (b, t) ∧ memReadByte s' va = .ok (b, t') ∧ AgreeBut q t t' := by
  unfold Machine.memReadByte
  rw [h.cfg, h.draws, h.mem]
  cases loadCheck s.cfg va 1 with
  | some c => exact .inl ⟨c, rfl, rfl⟩
  | none =>
    dsimp only
    split
    · exact .inr ⟨_, _, _, rfl, rfl, h.drawn⟩
    · exact .inr ⟨_, _, _, rfl, rfl, h⟩

theorem AgreeBut.memReadWord (h : AgreeBut q s s') (va : Word) :
    (∃ c, memReadWord s va = .error c ∧ memReadWord s' va = .error c) ∨
      ∃ w t t', memReadWord s va = .ok (w, t) ∧ memReadWord s' va = .ok (w, t') ∧ AgreeBut q t t' := by
  unfold Machine.memReadWord
  rw [h.cfg, h.draws, h.mem]
  cases loadCheck s.cfg va 4 with
  | some c => exact .inl ⟨c, rfl, rfl⟩
  | none =>
    dsimp only
    split
    · exact .inr ⟨_, _, _, rfl, rfl, h.drawn⟩
    · exact .inr ⟨_, _, _, rfl, rfl, h⟩

theorem AgreeBut.storeByte (h : AgreeBut q s s') (va : Word) (b : Byte) :
    NextAgreeBut q (finishStore s (memWriteByte s va b)) (finishStore s' (memWriteByte s' va b)) := by
  unfold memWriteByte
  rw [h.cfg, h.mem]
  cases storeCheck s.cfg va 1 with
  | some c => exact h.takeException rfl
  | none =>
    dsimp only
    split
    · exact ⟨_, _, rfl, rfl, (h.emit _).advance⟩
    · exact ⟨_, _, rfl, rfl, (h.setMem _).advance⟩

theorem AgreeBut.storeWord (h : AgreeBut q s s') (va w : Word) :
    NextAgreeBut q (finishStore s (memWriteWord s va w)) (finishStore s' (memWriteWord s' va w)) := by
  unfold memWriteWord
  rw [h.cfg, h.mem]
  cases storeCheck s.cfg va 4 with
  | some c => exact h.takeException rfl
  | none =>
    dsimp only
    split
    · exact ⟨_, _, rfl, rfl, (h.emit _).advance⟩
    · exact ⟨_, _, rfl, rfl, (h.setMem _).advance⟩

/-! ## Loads and stores -/

theorem AgreeBut.execLb (h : AgreeBut q s s') {rt base : RegNum} {offset : BitVec 16} (hb : s'.reg base = s.reg base) :
    NextAgreeBut q (execLb rt offset base s) (execLb rt offset base s') := by
  unfold Machine.execLb
  rw [hb]
  obtain ⟨c, e, e'⟩ | ⟨b, t, t', e, e', ht⟩ := h.memReadByte (effectiveAddr (s.reg base) offset) <;> rw [e, e']
  · exact h.takeException rfl
  · exact ht.writeBack rfl

theorem AgreeBut.execLw (h : AgreeBut q s s') {rt base : RegNum} {offset : BitVec 16} (hb : s'.reg base = s.reg base) :
    NextAgreeBut q (execLw rt offset base s) (execLw rt offset base s') := by
  unfold Machine.execLw
  rw [hb]
  split
  · obtain ⟨c, e, e'⟩ | ⟨w, t, t', e, e', ht⟩ := h.memReadWord (effectiveAddr (s.reg base) offset) <;> rw [e, e']
    · exact h.takeException rfl
    · exact ht.writeBack rfl
  · exact h.takeException rfl

theorem AgreeBut.execSb (h : AgreeBut q s s') {rt base : RegNum} {offset : BitVec 16} (hb : s'.reg base = s.reg base)
    (ht : s'.reg rt = s.reg rt) : NextAgreeBut q (execSb rt offset base s) (execSb rt offset base s') := by
  unfold Machine.execSb
  rw [hb, ht]
  exact h.storeByte _ _

theorem AgreeBut.execSw (h : AgreeBut q s s') {rt base : RegNum} {offset : BitVec 16} (hb : s'.reg base = s.reg base)
    (ht : s'.reg rt = s.reg rt) : NextAgreeBut q (execSw rt offset base s) (execSw rt offset base s') := by
  unfold Machine.execSw
  rw [hb, ht]
  split
  · exact h.storeWord _ _
  · exact h.takeException rfl

end

/-- An instruction that does not read `q` takes states that agree but for `q` to states that agree but for `q`. -/
theorem exec_agreeBut {i : Instr} {q : RegNum} {s s' : State} (h : AgreeBut q s s') (hq : q ∉ i.reads) :
    NextAgreeBut q (exec i s) (exec i s') := by
  have hr : ∀ r ∈ i.reads, s'.reg r = s.reg r := fun r hm => h.regs r fun e => hq (e ▸ hm)
  cases i <;>
    simp only [Instr.reads, List.forall_mem_cons, List.not_mem_nil, IsEmpty.forall_iff, implies_true, and_true] at hr
  case add => exact h.writeUnlessOverflow (by rw [hr.1, hr.2])
  case addi => exact h.writeUnlessOverflow (by rw [hr])
  case sub => exact h.writeUnlessOverflow (by rw [hr.1, hr.2])
  case addu => exact h.writeBack (by rw [hr.1, hr.2])
  case addiu => exact h.writeBack (by rw [hr])
  case slt => exact h.writeBack (by rw [hr.1, hr.2])
  case mul => exact h.writeBack (by rw [hr.1, hr.2])
  case and => exact h.writeBack (by rw [hr.1, hr.2])
  case andi => exact h.writeBack (by rw [hr])
  case lui => exact h.writeBack rfl
  case or => exact h.writeBack (by rw [hr.1, hr.2])
  case ori => exact h.writeBack (by rw [hr])
  case xor => exact h.writeBack (by rw [hr.1, hr.2])
  case xori => exact h.writeBack (by rw [hr])
  case sllv => exact h.writeBack (by rw [hr.1, hr.2])
  case sll => exact h.writeBack (by rw [hr])
  case srav => exact h.writeBack (by rw [hr.1, hr.2])
  case sra => exact h.writeBack (by rw [hr])
  case srlv => exact h.writeBack (by rw [hr.1, hr.2])
  case srl => exact h.writeBack (by rw [hr])
  case beq => exact h.branch (by rw [hr.1, hr.2])
  case bne => exact h.branch (by rw [hr.1, hr.2])
  case bgez => exact h.branch (by rw [hr])
  case bgtz => exact h.branch (by rw [hr])
  case blez => exact h.branch (by rw [hr])
  case bltz => exact h.branch (by rw [hr])
  case j => exact h.transfer (by rw [h.pc])
  case jal => exact h.transferLink (by rw [h.pc])
  case jr => exact h.transfer hr
  case jalr => exact h.transferLink hr
  case lb => exact h.execLb hr
  case lw => exact h.execLw hr
  case sb => exact h.execSb hr.1 hr.2
  case sw => exact h.execSw hr.1 hr.2

end Sys2Proof.Machine
end

section
/-! Alignment of `pc` and of the pending target (R17, R175), and the overflow raise (R101, R211). -/

namespace Sys2Proof.Machine

theorem add_toNat_mod_four {a b : Word} (ha : a.toNat % 4 = 0) (hb : b.toNat % 4 = 0) : (a + b).toNat % 4 = 0 := by
  rw [BitVec.toNat_add]
  omega

theorem branchTarget_aligned {a : Word} (ha : a.toNat % 4 = 0) (offset : BitVec 16) :
    (branchTarget a offset).toNat % 4 = 0 := by
  rw [branchTarget_eq, BitVec.toNat_ofInt]
  omega

theorem jumpTarget_aligned (a : Word) (index : BitVec 26) : (jumpTarget a index).toNat % 4 = 0 := by
  rw [jumpTarget_toNat]
  omega

theorem GoesOn.aligned {s t : State} (h : GoesOn s t) (hpc : s.pc.toNat % 4 = 0)
    (hp : ∀ a, s.pending = some a → a.toNat % 4 = 0) : t.pc.toNat % 4 = 0 := by
  obtain ⟨hslot, hnext, -⟩ := h
  cases hs : s.pending with
  | some a => rw [hslot a hs]; exact hp a hs
  | none => rw [hnext hs]; exact add_toNat_mod_four hpc (by decide)

/-- The target a transfer leaves pending, outside a delay slot, is the one it was given. -/
theorem transfer_pending {s t : State} {a : Word} (hp : s.pending = none) (h : transfer s a = .next t) :
    t.pending = some a := by
  obtain ⟨u, hu, -, ⟨-, hd⟩, -, -⟩ := transfer_free hp a
  obtain rfl : t = u := Host.Outcome.next.inj (h.symm.trans hu)
  exact hd

theorem transferLink_pending {s t : State} {link : RegNum} {a : Word} (hp : s.pending = none)
    (h : transferLink s link a = .next t) : t.pending = some a := by
  obtain ⟨u, hu, -, ⟨-, hd⟩, -, -⟩ := transferLink_free hp link a
  obtain rfl : t = u := Host.Outcome.next.inj (h.symm.trans hu)
  exact hd

theorem branch_pending_aligned {s t : State} {b : Bool} {offset : BitVec 16} (hp : s.pending = none)
    (hpc : s.pc.toNat % 4 = 0) (h : branch s b offset = .next t) : ∃ a, t.pending = some a ∧ a.toNat % 4 = 0 := by
  refine ⟨_, transfer_pending hp h, ?_⟩
  split
  · exact branchTarget_aligned hpc offset
  · exact add_toNat_mod_four hpc (by decide)

/-- The target a control transfer leaves pending is aligned, that of JR and JALR when the register is (R162, R163). -/
theorem exec_target_aligned {i : Instr} {s t : State} (hjr : ∀ r, i = .jr r → (s.reg r).toNat % 4 = 0)
    (hjalr : ∀ d r, i = .jalr d r → (s.reg r).toNat % 4 = 0) (hi : i.isControlTransfer = true) (hp : s.pending = none)
    (hpc : s.pc.toNat % 4 = 0) (h : exec i s = .next t) : ∃ a, t.pending = some a ∧ a.toNat % 4 = 0 := by
  cases i with
  | beq => exact branch_pending_aligned hp hpc h
  | bne => exact branch_pending_aligned hp hpc h
  | bgez => exact branch_pending_aligned hp hpc h
  | bgtz => exact branch_pending_aligned hp hpc h
  | blez => exact branch_pending_aligned hp hpc h
  | bltz => exact branch_pending_aligned hp hpc h
  | j index => exact ⟨_, transfer_pending hp h, jumpTarget_aligned s.pc index⟩
  | jal index => exact ⟨_, transferLink_pending hp h, jumpTarget_aligned s.pc index⟩
  | jr rs => exact ⟨_, transfer_pending hp h, hjr rs rfl⟩
  | jalr rd rs => exact ⟨_, transferLink_pending hp h, hjalr rd rs rfl⟩
  | _ => cases hi

theorem writeUnlessOverflow_raises {tmp : BitVec 33} (h : tmp.toInt < -2 ^ 31 ∨ 2 ^ 31 - 1 < tmp.toInt) (s : State)
    (rd : RegNum) : ∃ t, writeUnlessOverflow s rd tmp = .next t ∧ RaisesOnly s t (.integerOverflow s.pc) := by
  rw [writeUnlessOverflow, if_pos ((overflows_iff tmp).2 h)]
  exact takeException_spec _ s

end Sys2Proof.Machine
end

section
/-! The statements about the state and the step as a whole (10_state.md). -/

namespace Sys2Proof.Machine

/-- Settles O12: a step raises before the instruction or runs it, and both answer a next state. -/
theorem everyRunningStateSteps : Obligations.EveryRunningStateSteps := by
  intro s hs
  obtain ⟨c, -, h⟩ | ⟨i, -, h⟩ := step_cases hs
  · exact ⟨_, h⟩
  · rw [h]
    exact exec_next i s

/-- Settles O56: the state and the state with the register changed agree but for it, and `exec` keeps that. -/
theorem unreadRegistersDoNotMatter : Obligations.UnreadRegistersDoNotMatter := by
  intro i s q v hq
  obtain ⟨t, u, ht, hu, h⟩ := exec_agreeBut (agreeBut_setReg s q v) hq
  exact ⟨t, u, ht, hu, h.pc, h.pending, h.mem, h.status, h.draws, h.outputs, h.cfg, h.regs⟩

/-- Settles O35: a control transfer that completes is not in a delay slot; everything else goes on. -/
theorem pcAdvance : Obligations.PcAdvance := by
  intro i s t _ h hr
  obtain ⟨-, ht⟩ | ⟨-, hp, ht⟩ := exec_inv_running h hr
  · obtain ⟨hslot, hnext, -⟩ := ht.goesOn
    exact ⟨hnext, hslot⟩
  · obtain ⟨a, hpc, -⟩ := ht.delays
    exact ⟨fun _ => hpc, fun b hb => by simp [hp] at hb⟩

/-- Settles O36, by the two ways to complete. -/
theorem onlyControlTransfersSetPending : Obligations.OnlyControlTransfersSetPending := by
  intro i s t _ h hr
  obtain ⟨hi, ht⟩ | ⟨hi, -, ht⟩ := exec_inv_running h hr
  · obtain ⟨-, -, hp⟩ := ht.goesOn
    simp [hi, hp]
  · obtain ⟨a, -, hp⟩ := ht.delays
    simp [hi, hp]

/-- Settles O38: a raise leaves both, going on takes the aligned successor, and a transfer has an aligned target. -/
theorem pcStaysAligned : Obligations.PcStaysAligned := by
  intro i s t hjr hjalr h hpc hp
  obtain ⟨c, rfl⟩ | ⟨-, ht⟩ | ⟨hi, hnone, ht⟩ := exec_inv h
  · exact ⟨hpc, hp⟩
  · obtain ⟨-, -, hnone⟩ := ht.goesOn
    exact ⟨ht.goesOn.aligned hpc hp, fun a ha => by simp [hnone] at ha⟩
  · obtain ⟨-, hnext, -⟩ := ht.delays
    obtain ⟨a, ha, haligned⟩ := exec_target_aligned hjr hjalr hi hnone hpc h
    refine ⟨by rw [hnext]; exact add_toNat_mod_four hpc (by decide), fun b hb => ?_⟩
    obtain rfl : a = b := Option.some.inj (ha.symm.trans hb)
    exact haligned

/-- Settles O53: neither a raise before the instruction nor the instruction writes it. -/
theorem configurationIsFixed : Obligations.ConfigurationIsFixed := by
  intro s t h
  obtain ⟨c, -, hs⟩ | ⟨i, -, hs⟩ := step_cases (running_of_step h)
  · obtain rfl : t = _ := Host.Outcome.next.inj (h.symm.trans hs)
    rfl
  · exact exec_cfg (hs ▸ h)

/-- Settles O55, by the inversion of `exec`. -/
theorem onlyTheNamedRegisterIsWritten : Obligations.OnlyTheNamedRegisterIsWritten :=
  fun _ _ _ _ hr h => exec_reg_of_not_writes h hr

/-- Settles O57: with destination 0 no other register is written, and register 0 reads zero before and after; the
overflow test is on the exact 33-bit value, whatever the destination. -/
theorem registerZero : Obligations.RegisterZero := by
  refine ⟨fun _ => rfl, fun _ _ => rfl, fun i s t hw h r => ?_,
    fun rs rt imm s => ⟨fun h => ?_, fun h => ?_, fun h => ?_⟩⟩
  · obtain rfl | hr := eq_or_ne r 0
    · rfl
    · exact exec_reg_of_not_writes h fun e => hr (Option.some.inj (e.symm.trans hw))
  · exact writeUnlessOverflow_raises (by rwa [sext33_add_toInt]) s 0
  · exact writeUnlessOverflow_raises (by rwa [sext33_sub_toInt]) s 0
  · exact writeUnlessOverflow_raises (by rwa [sext33_addImm_toInt]) s 0

/-- Settles O10, by the first branch of the step. -/
theorem faultedMachineTakesNoStep : Obligations.FaultedMachineTakesNoStep := by
  intro s c h
  rw [step, h]

/-- Settles O14: the fetch answers the word and the decoder the instruction, so the step is past both. -/
theorem stepRunsTheDecodedInstruction : Obligations.StepRunsTheDecodedInstruction := by
  intro s i hs hpc hram hd
  have hf : fetchInstr s = .ok i := fetchInstr_decodes (fetchWord_ram hpc hram) hd
  rw [step, hs, hf]

end Sys2Proof.Machine
end

section
/-! What an instruction and a step do to memory and to the devices (R44, R45): the inversion of `exec` and of `step` kept
to the three fields `mem`, `draws` and `outputs`. -/

namespace Sys2Proof.Machine

/-- What the step from `s` to `t` did to memory and to the devices. -/
inductive MemoryEffect (s t : State) : Prop where
  | silent (hm : t.mem = s.mem) (hd : t.draws = s.draws) (ho : t.outputs = s.outputs)
  | drew (hm : t.mem = s.mem) (hd : t.draws = s.draws + 1) (ho : t.outputs = s.outputs)
  | emitted (o : DeviceWrite) (hm : t.mem = s.mem) (hd : t.draws = s.draws) (ho : t.outputs = s.outputs ++ [o])
  | storedByte (va : Word) (b : Byte) (hc : storeCheck s.cfg va 1 = none)
      (hm : t.mem = s.mem.write (physAddr s.cfg va) b) (hd : t.draws = s.draws) (ho : t.outputs = s.outputs)
  | storedWord (va w : Word) (hc : storeCheck s.cfg va 4 = none)
      (hm : t.mem = s.mem.writeWord (physAddr s.cfg va) w) (hd : t.draws = s.draws) (ho : t.outputs = s.outputs)

theorem Completed.memoryEffect {i : Instr} {s t : State} (h : Completed i s t) : MemoryEffect s t := by
  cases h with
  | wrote => exact .silent rfl rfl rfl
  | drew => exact .drew rfl rfl rfl
  | storedByte va b _ _ hc => exact .storedByte va b hc rfl rfl rfl
  | storedWord va w _ _ hc => exact .storedWord va w hc rfl rfl rfl
  | emitted o => exact .emitted o rfl rfl rfl

theorem Completed.mem_of_not_store {i : Instr} {s t : State} (h : Completed i s t) (hi : i.isStore = false) :
    t.mem = s.mem := by
  cases h with
  | wrote => rfl
  | drew => rfl
  | emitted => rfl
  | storedByte _ _ _ hs => exact absurd (hi.symm.trans hs) Bool.false_ne_true
  | storedWord _ _ _ hs => exact absurd (hi.symm.trans hs) Bool.false_ne_true

theorem Transferred.silent {i : Instr} {s t : State} (h : Transferred i s t) :
    t.mem = s.mem ∧ t.draws = s.draws ∧ t.outputs = s.outputs := by
  cases h <;> exact ⟨rfl, rfl, rfl⟩

theorem exec_memoryEffect {i : Instr} {s t : State} (h : exec i s = .next t) : MemoryEffect s t := by
  obtain ⟨c, rfl⟩ | ⟨-, ht⟩ | ⟨-, -, ht⟩ := exec_inv h
  · exact .silent rfl rfl rfl
  · exact ht.memoryEffect
  · obtain ⟨hm, hd, ho⟩ := ht.silent
    exact .silent hm hd ho

theorem step_memoryEffect {s t : State} (h : step s = .next t) : MemoryEffect s t := by
  obtain ⟨c, -, hs⟩ | ⟨i, -, hs⟩ := step_cases (running_of_step h)
  · obtain rfl : t = s.raised c := Host.Outcome.next.inj (h.symm.trans hs)
    exact .silent rfl rfl rfl
  · exact exec_memoryEffect (hs ▸ h)

/-- The bytes a store may write are bytes of the physical space (R44). -/
theorem storeCheck_lt {c : Config} {va : Word} {n k : Nat} (h : storeCheck c va n = none) (hk : k < n) :
    physAddr c va + k < 2 ^ Config.paBits :=
  regionOf_lt ((storeCheck_none_iff.1 h).1 k hk)

/-- No byte of `TEXT` is among the bytes a store may write (R49). -/
theorem storeCheck_text_apart {c : Config} {va : Word} {n pa : Nat} (h : storeCheck c va n = none)
    (hpa : inText c pa = true) : pa < physAddr c va ∨ physAddr c va + n ≤ pa := by
  by_contra hn
  obtain ⟨k, rfl⟩ : ∃ k, pa = physAddr c va + k := Nat.exists_eq_add_of_le (by omega)
  obtain ⟨-, hfree⟩ := storeCheck_none_iff.1 h
  exact absurd (hpa.symm.trans (hfree k (by omega))) Bool.noConfusion

/-- Settles O52: memory is as before, or one byte or one word of it is written, inside the physical space. -/
theorem stepKeepsMemoryCanonical : Obligations.StepKeepsMemoryCanonical := by
  intro s t hwf h
  cases step_memoryEffect h with
  | silent hm => rwa [hm]
  | drew hm => rwa [hm]
  | emitted _ hm => rwa [hm]
  | storedByte va b hc hm =>
    rw [hm]
    exact Memory.wf_write b (storeCheck_lt hc Nat.one_pos) hwf
  | storedWord va w hc hm =>
    rw [hm]
    exact Memory.wf_writeWord w (storeCheck_lt hc (by decide)) hwf

/-- Settles O50: only the two stores complete with a write to memory. -/
theorem onlyStoresWriteMemory : Obligations.OnlyStoresWriteMemory := by
  intro i s t hi h
  obtain ⟨c, rfl⟩ | ⟨-, ht⟩ | ⟨-, -, ht⟩ := exec_inv h
  · rfl
  · exact ht.mem_of_not_store hi
  · obtain ⟨hm, -, -⟩ := ht.silent
    exact hm

/-- Settles O51: a store that passed its checks writes bytes outside `TEXT` alone. -/
theorem textNeverChanges : Obligations.TextNeverChanges := by
  intro s t pa hpa h
  cases step_memoryEffect h with
  | silent hm => rw [hm]
  | drew hm => rw [hm]
  | emitted _ hm => rw [hm]
  | storedByte va b hc hm =>
    have hapart := storeCheck_text_apart hc hpa
    rw [hm]
    exact s.mem.read_write_other b (by omega)
  | storedWord va w hc hm =>
    rw [hm]
    exact s.mem.read_writeWord_other w (storeCheck_text_apart hc hpa)

/-- Settles O54, by the five things a step can do to memory and devices. -/
theorem oneDeviceAccessPerStep : Obligations.OneDeviceAccessPerStep := by
  intro s t h
  cases step_memoryEffect h with
  | silent _ hd ho => exact .inl ⟨hd, ho⟩
  | drew hm hd ho => exact .inr (.inl ⟨hd, ho, hm⟩)
  | emitted o hm hd ho => exact .inr (.inr ⟨hd, ⟨o, ho⟩, hm⟩)
  | storedByte _ _ _ _ hd ho => exact .inl ⟨hd, ho⟩
  | storedWord _ _ _ _ hd ho => exact .inl ⟨hd, ho⟩

end Sys2Proof.Machine
end

section
/-! The fixed mapping on a legal segment map (R41): the five segments follow one another from 0 to 2^32, so the one that
holds an address is the one `segmentOf` finds. -/

namespace Sys2Proof.Machine

theorem segmentHolds_iff (g : Segment) (va : Nat) :
    segmentHolds g va = true ↔ g.vbase ≤ va ∧ va < g.vbase + g.size := by
  simp [segmentHolds]

theorem segMap_covers_iff (m : SegMap) :
    m.covers = true ↔
      m.seg0.vbase = 0 ∧ m.seg1.vbase = m.seg0.vbase + m.seg0.size ∧ m.seg2.vbase = m.seg1.vbase + m.seg1.size ∧
      m.seg3.vbase = m.seg2.vbase + m.seg2.size ∧ m.seg4.vbase = m.seg3.vbase + m.seg3.size ∧
      m.seg4.vbase + m.seg4.size = 2 ^ 32 := by
  simp only [SegMap.covers, Bool.and_eq_true, beq_iff_eq, and_assoc]

theorem segMap_wellFormed_iff (m : SegMap) :
    m.wellFormed = true ↔ m.covers = true ∧ ∀ g ∈ m.segments, g.wellFormed = true := by
  simp only [SegMap.wellFormed, Bool.and_eq_true, List.all_eq_true]

theorem mem_segments_iff (m : SegMap) (g : Segment) :
    g ∈ m.segments ↔ g = m.seg0 ∨ g = m.seg1 ∨ g = m.seg2 ∨ g = m.seg3 ∨ g = m.seg4 := by
  simp [SegMap.segments]

theorem segmentOf_mem (m : SegMap) (va : Nat) : segmentOf m va ∈ m.segments := by
  rw [mem_segments_iff, segmentOf]
  split_ifs <;> simp

/-- The segment found holds the address: the first four by their test, the fifth because it takes the rest (R41). -/
theorem segmentOf_holds {m : SegMap} (hm : m.covers = true) {va : Nat} (hva : va < 2 ^ 32) :
    segmentHolds (segmentOf m va) va = true := by
  rw [segmentOf]
  split_ifs with h0 h1 h2 h3
  · exact h0
  · exact h1
  · exact h2
  · exact h3
  · rw [segMap_covers_iff] at hm
    rw [segmentHolds_iff] at *
    omega

/-- No other segment holds the address: the segments are disjoint (R41). -/
theorem segmentOf_eq_of_holds {m : SegMap} (hm : m.covers = true) {va : Nat} {g : Segment} (hg : g ∈ m.segments)
    (h : segmentHolds g va = true) : segmentOf m va = g := by
  rw [segMap_covers_iff] at hm
  simp only [segmentOf, segmentHolds_iff] at *
  obtain rfl | rfl | rfl | rfl | rfl := (mem_segments_iff m g).1 hg
  · exact if_pos h
  · rw [if_neg (by omega), if_pos h]
  · rw [if_neg (by omega), if_neg (by omega), if_pos h]
  · rw [if_neg (by omega), if_neg (by omega), if_neg (by omega), if_pos h]
  · rw [if_neg (by omega), if_neg (by omega), if_neg (by omega), if_neg (by omega)]

/-- A segment maps the addresses it holds linearly (R41). -/
theorem physAddr_of_holds {c : Config} (hc : c.segmap.covers = true) {va : Word} {g : Segment}
    (hg : g ∈ c.segmap.segments) (h : segmentHolds g va.toNat = true) :
    physAddr c va = g.pbase + (va.toNat - g.vbase) := by
  rw [physAddr, segmentOf_eq_of_holds hc hg h]

/-- Settles O47: the segment is the one `segmentOf` finds. -/
theorem translationIsFixedAndLinear : Obligations.TranslationIsFixedAndLinear := by
  intro c va kind dir hwf
  obtain ⟨hc, -⟩ := (segMap_wellFormed_iff _).1 hwf
  obtain ⟨hlo, hhi⟩ := (segmentHolds_iff _ _).1 (segmentOf_holds hc va.isLt)
  exact ⟨rfl, segmentOf c.segmap va.toNat, segmentOf_mem _ _, hlo, hhi, rfl, fun h hh hlo' hhi' =>
    (segmentOf_eq_of_holds hc hh ((segmentHolds_iff _ _).2 ⟨hlo', hhi'⟩)).symm⟩

/-- Settles O48: a segment's bounds are multiples of 4, so the one that holds an aligned address holds its word. -/
theorem alignedWordStaysInOneSegment : Obligations.AlignedWordStaysInOneSegment := by
  intro c va hwf hva
  obtain ⟨hc, hall⟩ := (segMap_wellFormed_iff _).1 hwf
  obtain ⟨g, hg, h⟩ : ∃ g ∈ c.segmap.segments, segmentHolds g va.toNat = true :=
    ⟨_, segmentOf_mem _ _, segmentOf_holds hc va.isLt⟩
  obtain ⟨-, hp, hv4, hs4, hp4⟩ := (segment_wellFormed_iff g).1 (hall g hg)
  have hpa := physAddr_of_holds hc hg h
  rw [segmentHolds_iff] at h
  refine ⟨by omega, by omega, fun k hk => ?_⟩
  have hk' : (va + BitVec.ofNat 32 k).toNat = va.toNat + k := by
    have := va.isLt
    rw [BitVec.toNat_add, BitVec.toNat_ofNat]
    omega
  rw [physAddr_of_holds hc hg ((segmentHolds_iff _ _).2 (by omega))]
  omega

/-- Under the recommended map, an address is mapped by the segment that holds it (R42). -/
theorem physAddr_default {g : Segment} (hg : g ∈ SegMap.mips32.segments) {va : Nat} (hva : va < 2 ^ 32)
    (h : g.vbase ≤ va ∧ va < g.vbase + g.size) :
    physAddr Config.default (BitVec.ofNat 32 va) = g.pbase + (va - g.vbase) := by
  have hn : (BitVec.ofNat 32 va).toNat = va := by rw [BitVec.toNat_ofNat, Nat.mod_eq_of_lt hva]
  rw [physAddr_of_holds (c := Config.default) (by decide) hg (by rwa [hn, segmentHolds_iff]), hn]

/-- Settles O49: the three segments, each with physical base 0. -/
theorem defaultMapAliases : Obligations.DefaultMapAliases := by
  intro p hp
  have h0 := physAddr_default (g := SegMap.mips32.seg0) (va := p) (by decide)
  have h1 := physAddr_default (g := SegMap.mips32.seg1) (va := 0x80000000 + p) (by decide)
  have h2 := physAddr_default (g := SegMap.mips32.seg2) (va := 0xA0000000 + p) (by decide)
  simp only [SegMap.mips32] at h0 h1 h2
  exact ⟨by omega, by omega, by omega⟩

end Sys2Proof.Machine
end

section
/-! The bytes of words (R31, R32), and what the four accesses do to RAM (R33, R34, R46). -/

namespace Sys2Proof.Machine

/-! ## Bytes of words -/

theorem byteOf_wordOfBytes (b0 b1 b2 b3 : Byte) {k : Nat} (hk : k < 4) :
    byteOf (wordOfBytes b0 b1 b2 b3) k = [b0, b1, b2, b3][k] := by
  apply BitVec.eq_of_toNat_eq
  rw [byteOf_toNat, wordOfBytes_toNat]
  interval_cases k <;> simp <;> omega

/-- Byte `k` of the word at `a` is the byte at `a + k` (R31). -/
theorem Memory.byteOf_readWord (m : Memory) (a : Nat) {k : Nat} (hk : k < 4) :
    byteOf (m.readWord a) k = m.read (a + k) := by
  rw [Memory.readWord, byteOf_wordOfBytes _ _ _ _ hk]
  interval_cases k <;> rfl

/-- The byte at `a + k` after a word was written at `a` is the word's byte `k` (R31). -/
theorem Memory.read_writeWord_byte (m : Memory) (a : Nat) (w : Word) {k : Nat} (hk : k < 4) :
    (m.writeWord a w).read (a + k) = byteOf w k := by
  rw [← Memory.byteOf_readWord _ a hk, Memory.readWord_writeWord]

/-- A byte written inside a word takes its place there, and the other bytes are as before (R32). -/
theorem Memory.byteOf_readWord_write (m : Memory) (a : Nat) (b : Byte) {j k : Nat} (hj : j < 4) :
    byteOf ((m.write (a + k) b).readWord a) j = if j = k then b else m.read (a + j) := by
  simp only [Memory.byteOf_readWord _ a hj, Memory.read_write, Nat.add_left_cancel_iff]

/-- Settles O45, byte by byte. -/
theorem mixedWidthAccess : Obligations.MixedWidthAccess := by
  intro m a w b b0 b1 b2 b3
  refine ⟨fun k hk => m.read_writeWord_byte a w hk, ?_, fun k _ j hj => ?_⟩
  · simp [Memory.readWord, Memory.read_write, wordOfBytes]
  · exact (m.byteOf_readWord_write a b hj).trans (by rw [← m.byteOf_readWord a hj]; rfl)

/-! ## The four arms of `exec` -/

section
variable (rt base : RegNum) (offset : BitVec 16) (s : State)

theorem exec_lb : exec (.lb rt offset base) s =
    finishLoad s rt ((memReadByte s (effectiveAddr (s.reg base) offset)).map fun (b, t) => (b.signExtend 32, t)) := rfl

theorem exec_lw : exec (.lw rt offset base) s =
    if wordAligned (effectiveAddr (s.reg base) offset) then
      finishLoad s rt (memReadWord s (effectiveAddr (s.reg base) offset))
    else takeException (.addressError .load (effectiveAddr (s.reg base) offset)) s := rfl

theorem exec_sb : exec (.sb rt offset base) s =
    finishStore s (memWriteByte s (effectiveAddr (s.reg base) offset) (byteOf (s.reg rt) 0)) := rfl

theorem exec_sw : exec (.sw rt offset base) s =
    if wordAligned (effectiveAddr (s.reg base) offset) then
      finishStore s (memWriteWord s (effectiveAddr (s.reg base) offset) (s.reg rt))
    else takeException (.addressError .store (effectiveAddr (s.reg base) offset)) s := rfl

end

/-! ## One access to RAM -/

section
variable {s : State} {rt base : RegNum} {offset : BitVec 16} {va : Word} (hva : va = effectiveAddr (s.reg base) offset)
include hva

/-- LB from RAM writes the byte back, sign-extended (R191). -/
theorem exec_lb_ram (hr : regionOf s.cfg (physAddr s.cfg va) = .ram) :
    exec (.lb rt offset base) s = writeBack s rt ((s.mem.read (physAddr s.cfg va)).signExtend 32) := by
  subst hva
  rw [exec_lb]
  obtain ⟨e, hc, -⟩ | ⟨-, hd, -⟩ | ⟨-, -, h⟩ := memReadByte_cases s (effectiveAddr (s.reg base) offset)
  · obtain ⟨-, k, hk, hn⟩ := loadCheck_some_iff.1 hc
    obtain rfl := Nat.lt_one_iff.1 hk
    simp [hr] at hn
  · simp [hr] at hd
  · rw [h]; rfl

/-- LW from an aligned word of RAM writes the word back (R192). -/
theorem exec_lw_ram (ha : va.toNat % 4 = 0) (hr : ∀ k < 4, regionOf s.cfg (physAddr s.cfg va + k) = .ram) :
    exec (.lw rt offset base) s = writeBack s rt (s.mem.readWord (physAddr s.cfg va)) := by
  subst hva
  rw [exec_lw, if_pos ((wordAligned_iff _).2 ha)]
  obtain ⟨e, hc, -⟩ | ⟨-, hd, -⟩ | ⟨-, -, h⟩ := memReadWord_cases s (effectiveAddr (s.reg base) offset)
  · obtain ⟨-, k, hk, hn⟩ := loadCheck_some_iff.1 hc
    simp [hr k hk] at hn
  · exact absurd ((hr 0 (by decide)).symm.trans hd) (by decide)
  · rw [h]; rfl

/-- SB to RAM outside `TEXT` writes the low byte of the register to memory (R193). -/
theorem exec_sb_ram (hr : regionOf s.cfg (physAddr s.cfg va) = .ram) (ht : inText s.cfg (physAddr s.cfg va) = false) :
    exec (.sb rt offset base) s =
      .next (s.setMem (s.mem.write (physAddr s.cfg va) (byteOf (s.reg rt) 0))).advance := by
  subst hva
  have hc : storeCheck s.cfg (effectiveAddr (s.reg base) offset) 1 = none := storeCheck_none_iff.2
    ⟨by simp [hr], by simpa using ht⟩
  rw [exec_sb]
  obtain ⟨e, he, -⟩ | ⟨-, hd, -⟩ | ⟨-, -, h⟩ :=
    memWriteByte_cases s (effectiveAddr (s.reg base) offset) (byteOf (s.reg rt) 0)
  · cases hc.symm.trans he
  · cases hr.symm.trans hd
  · rw [h]; rfl

/-- SW to an aligned word of RAM outside `TEXT` writes the register to memory (R194). -/
theorem exec_sw_ram (ha : va.toNat % 4 = 0) (hr : ∀ k < 4, regionOf s.cfg (physAddr s.cfg va + k) = .ram)
    (ht : ∀ k < 4, inText s.cfg (physAddr s.cfg va + k) = false) :
    exec (.sw rt offset base) s = .next (s.setMem (s.mem.writeWord (physAddr s.cfg va) (s.reg rt))).advance := by
  subst hva
  have hc : storeCheck s.cfg (effectiveAddr (s.reg base) offset) 4 = none := storeCheck_none_iff.2
    ⟨fun k hk => by simp [hr k hk], ht⟩
  rw [exec_sw, if_pos ((wordAligned_iff _).2 ha)]
  obtain ⟨e, he, -⟩ | ⟨-, hd, -⟩ | ⟨-, -, h⟩ := memWriteWord_cases s (effectiveAddr (s.reg base) offset) (s.reg rt)
  · cases hc.symm.trans he
  · cases (hr 0 (by decide)).symm.trans hd
  · rw [h]; rfl

end

/-! ## A load after a store: memory is `m`, and the rest the load depends on is as before the store -/

section
variable {s : State} {rt base : RegNum} {offset : BitVec 16} {va : Word} (hrt : rt ≠ 0)
  (hva : va = effectiveAddr (s.reg base) offset) (m : Memory)
include hrt hva

theorem exec_lb_after_store (hr : regionOf s.cfg (physAddr s.cfg va) = .ram) :
    ∃ u, exec (.lb rt offset base) (s.setMem m).advance = .next u ∧
      u.reg rt = (m.read (physAddr s.cfg va)).signExtend 32 := by
  obtain ⟨u, hu, ⟨hreg, -⟩, -⟩ := writeBack_spec (s.setMem m).advance rt ((m.read (physAddr s.cfg va)).signExtend 32)
  exact ⟨u, (exec_lb_ram (s := (s.setMem m).advance) hva hr).trans hu, hreg hrt⟩

theorem exec_lw_after_store (ha : va.toNat % 4 = 0) (hr : ∀ k < 4, regionOf s.cfg (physAddr s.cfg va + k) = .ram) :
    ∃ u, exec (.lw rt offset base) (s.setMem m).advance = .next u ∧ u.reg rt = m.readWord (physAddr s.cfg va) := by
  obtain ⟨u, hu, ⟨hreg, -⟩, -⟩ := writeBack_spec (s.setMem m).advance rt (m.readWord (physAddr s.cfg va))
  exact ⟨u, (exec_lw_ram (s := (s.setMem m).advance) hva ha hr).trans hu, hreg hrt⟩

end

/-- Settles O46: the store's effect is one write to memory, the load reads that memory at the same physical bytes, and
the laws of memory say what it finds. -/
theorem loadSeesTheLatestStore : Obligations.LoadSeesTheLatestStore := by
  intro rt rt' base base' offset offset' s va va' hrt' hva hva'
  refine ⟨fun ha hr ht => ⟨fun ha' hpa => ?_, fun k hk hpa => ?_⟩,
    fun hr ht => ⟨fun hpa => ?_, fun k hk ha' hr' hpa => ?_⟩⟩
  · obtain ⟨u, hu, hreg⟩ := exec_lw_after_store hrt' hva' (s.mem.writeWord (physAddr s.cfg va) (s.reg rt)) ha'
      (hpa ▸ hr)
    exact ⟨_, u, exec_sw_ram hva ha hr ht, hu, by rw [hreg, hpa, Memory.readWord_writeWord]⟩
  · obtain ⟨u, hu, hreg⟩ := exec_lb_after_store hrt' hva' (s.mem.writeWord (physAddr s.cfg va) (s.reg rt))
      (hpa ▸ hr k hk)
    refine ⟨_, u, exec_sw_ram hva ha hr ht, hu, ?_⟩
    rw [hreg, hpa, Memory.read_writeWord_byte _ _ _ hk]
    rfl
  · obtain ⟨u, hu, hreg⟩ := exec_lb_after_store hrt' hva' (s.mem.write (physAddr s.cfg va) (byteOf (s.reg rt) 0))
      (hpa ▸ hr)
    refine ⟨_, u, exec_sb_ram hva hr ht, hu, ?_⟩
    rw [hreg, hpa, Memory.read_write_same]
    rfl
  · obtain ⟨u, hu, hreg⟩ := exec_lw_after_store hrt' hva' (s.mem.write (physAddr s.cfg va) (byteOf (s.reg rt) 0)) ha' hr'
    refine ⟨_, u, exec_sb_ram hva hr ht, hu, fun j hj => ?_⟩
    rw [hreg, hpa]
    exact Memory.byteOf_readWord_write _ _ _ hj

/-! ## Alignment (R33, R34) -/

/-- LW at a misaligned address raises before the access (R33). -/
theorem exec_lw_misaligned {s : State} {rt base : RegNum} {offset : BitVec 16} {va : Word}
    (hva : va = effectiveAddr (s.reg base) offset) (ha : va.toNat % 4 ≠ 0) :
    exec (.lw rt offset base) s = takeException (.addressError .load va) s := by
  subst hva
  rw [exec_lw, if_neg (mt (wordAligned_iff _).1 ha)]

/-- SW at a misaligned address raises before the access (R33). -/
theorem exec_sw_misaligned {s : State} {rt base : RegNum} {offset : BitVec 16} {va : Word}
    (hva : va = effectiveAddr (s.reg base) offset) (ha : va.toNat % 4 ≠ 0) :
    exec (.sw rt offset base) s = takeException (.addressError .store va) s := by
  subst hva
  rw [exec_sw, if_neg (mt (wordAligned_iff _).1 ha)]

/-- A byte load completes or raises Unmapped (R191). -/
theorem exec_lb_status {s t : State} {rt base : RegNum} {offset : BitVec 16} (h : exec (.lb rt offset base) s = .next t) :
    t.status = s.status ∨ ∃ va, t.status = .fault (.unmapped .load va) := by
  rw [exec_lb] at h
  obtain ⟨e, hc, hm⟩ | ⟨-, -, hm⟩ | ⟨-, -, hm⟩ := memReadByte_cases s (effectiveAddr (s.reg base) offset) <;>
    obtain rfl := Host.Outcome.next.inj ((hm ▸ h).symm)
  · obtain ⟨rfl, -⟩ := loadCheck_some_iff.1 hc
    exact .inr ⟨_, rfl⟩
  · exact .inl rfl
  · exact .inl rfl

/-- A byte store completes or raises Unmapped or StoreToText (R193). -/
theorem exec_sb_status {s t : State} {rt base : RegNum} {offset : BitVec 16} (h : exec (.sb rt offset base) s = .next t) :
    t.status = s.status ∨ ∃ va, t.status = .fault (.unmapped .store va) ∨ t.status = .fault (.storeToText va) := by
  rw [exec_sb] at h
  obtain ⟨e, hc, hm⟩ | ⟨-, -, hm⟩ | ⟨-, -, hm⟩ :=
      memWriteByte_cases s (effectiveAddr (s.reg base) offset) (byteOf (s.reg rt) 0) <;>
    obtain rfl := Host.Outcome.next.inj ((hm ▸ h).symm)
  · obtain rfl | rfl := storeCheck_cause hc
    · exact .inr ⟨_, .inl rfl⟩
    · exact .inr ⟨_, .inr rfl⟩
  · exact .inl rfl
  · exact .inl rfl

/-- Settles O40: the word accesses test the address first, and the byte accesses have other causes only. -/
theorem dataAlignment : Obligations.DataAlignment := by
  intro rt offset base s va hva
  refine ⟨fun ha => ⟨⟨_, exec_lw_misaligned hva ha, rfl, rfl, rfl⟩,
    ⟨_, exec_sw_misaligned hva ha, rfl, fun _ => rfl, rfl⟩⟩, fun hs t d a h => ?_⟩
  obtain h | h := h
  · obtain ht | ⟨x, ht⟩ := exec_lb_status h <;> simp [ht, hs]
  · obtain ht | ⟨x, ht | ht⟩ := exec_sb_status h <;> simp [ht, hs]

end Sys2Proof.Machine
end

section
/-! The decoder of R71 layout by layout, and its agreement with the encoder of R72. -/

namespace Sys2Proof

/-! ## Must-be-zero fields (R77) -/

theorem mustBeZero_ok_iff {z : Bool} {i j : Instr} : mustBeZero z i = .ok j ↔ z = true ∧ i = j := by
  cases z <;> simp [mustBeZero]

theorem mustBeZero_error {z : Bool} (hz : z = false) (i : Instr) : ∃ e, mustBeZero z i = .error e :=
  ⟨.nonZeroField i.mnemonic, by simp [mustBeZero, hz]⟩

/-! ## Which table reads a word (R71) -/

section
variable {w : Word}

theorem decodeWord_special (h : opcodeOf w = 0x00) :
    decodeWord w = decodeSpecial (rsOf w) (rtOf w) (rdOf w) (saOf w) (functOf w) := by
  rw [decodeWord, h]
  rfl

theorem decodeWord_regimm (h : opcodeOf w = 0x01) : decodeWord w = decodeRegimm (rsOf w) (rtOf w) (immOf w) := by
  rw [decodeWord, h]
  rfl

theorem decodeWord_special2 (h : opcodeOf w = 0x1C) :
    decodeWord w = decodeSpecial2 (rsOf w) (rtOf w) (rdOf w) (saOf w) (functOf w) := by
  rw [decodeWord, h]
  rfl

theorem decodeWord_primary (h : opcodeOf w ≠ 0x00 ∧ opcodeOf w ≠ 0x01 ∧ opcodeOf w ≠ 0x1C) :
    decodeWord w = decodePrimary (opcodeOf w) (rsOf w) (rtOf w) (immOf w) (indexOf w) := by
  obtain ⟨h0, h1, h2⟩ := h
  unfold decodeWord
  split
  · contradiction
  · contradiction
  · contradiction
  · rfl
end

section
variable (rs rt rd : RegNum) (sa : BitVec 5) (f : BitVec 6) (imm : BitVec 16)

theorem decodeWord_rType_special : decodeWord (rType 0x00 rs rt rd sa f) = decodeSpecial rs rt rd sa f := by
  simp [decodeWord_special]

theorem decodeWord_rType_special2 : decodeWord (rType 0x1C rs rt rd sa f) = decodeSpecial2 rs rt rd sa f := by
  simp [decodeWord_special2]

theorem decodeWord_iType_regimm : decodeWord (iType 0x01 rs rt imm) = decodeRegimm rs rt imm := by
  simp [decodeWord_regimm]

theorem decodeWord_iType_primary {op : BitVec 6} (h : op ≠ 0x00 ∧ op ≠ 0x01 ∧ op ≠ 0x1C) :
    decodeWord (iType op rs rt imm) = decodePrimary op rs rt imm (indexOf (iType op rs rt imm)) := by
  rw [decodeWord_primary (by simpa using h)]
  simp

theorem decodeWord_jType_primary {op : BitVec 6} (h : op ≠ 0x00 ∧ op ≠ 0x01 ∧ op ≠ 0x1C) (index : BitVec 26) :
    decodeWord (jType op index) =
      decodePrimary op (rsOf (jType op index)) (rtOf (jType op index)) (immOf (jType op index)) index := by
  rw [decodeWord_primary (by simpa using h)]
  simp
end

/-! ## Decode after encode (R71, R72, R31) -/

theorem decodeWord_encode (i : Instr) : decodeWord (encode i) = .ok i := by
  cases i
  case mul => exact decodeWord_rType_special2 ..
  case bgez | bltz => exact decodeWord_iType_regimm ..
  case j | jal => exact decodeWord_jType_primary (by decide) _
  case addi | addiu | andi | ori | xori | lui | beq | bne | bgtz | blez | lb | lw | sb | sw =>
    exact decodeWord_iType_primary _ _ _ (by decide)
  all_goals exact decodeWord_rType_special ..

theorem decode_bytesOf {w : Word} {i : Instr} (h : decodeWord w = .ok i) (rest : List Byte) :
    decode (bytesOf w ++ rest) = .ok (i, rest) := by
  simp [bytesOf, decode, wordOfBytes_bytes, h]

/-- Settles O2: the fields of each layout select the instruction's own entry of the decoder, and its bytes make up the
word again. -/
theorem decodeOfEncode : Obligations.DecodeOfEncode := fun i rest =>
  ⟨decodeWord_encode i, decode_bytesOf (decodeWord_encode i) rest⟩

/-! ## Encode after decode -/

theorem encode_of_mustBeZero {z : Bool} {i j : Instr} {w : Word} (hw : z = true → encode i = w)
    (h : mustBeZero z i = .ok j) : encode j = w := by
  obtain ⟨hz, rfl⟩ := mustBeZero_ok_iff.1 h
  exact hw hz

theorem encode_of_decodeSpecial {rs rt rd : RegNum} {sa : BitVec 5} {f : BitVec 6} {i : Instr}
    (h : decodeSpecial rs rt rd sa f = .ok i) : encode i = rType 0x00 rs rt rd sa f := by
  unfold decodeSpecial at h
  split at h
  case h_16 => cases h
  all_goals
    refine encode_of_mustBeZero (fun hz => ?_) h
    simp only [beq_iff_eq, Bool.and_eq_true] at hz
    simp [encode, hz]

theorem encode_of_decodeRegimm {rs rt : RegNum} {imm : BitVec 16} {i : Instr}
    (h : decodeRegimm rs rt imm = .ok i) : encode i = iType 0x01 rs rt imm := by
  unfold decodeRegimm at h
  split at h
  case h_3 => cases h
  all_goals
    cases h
    rfl

theorem encode_of_decodeSpecial2 {rs rt rd : RegNum} {sa : BitVec 5} {f : BitVec 6} {i : Instr}
    (h : decodeSpecial2 rs rt rd sa f = .ok i) : encode i = rType 0x1C rs rt rd sa f := by
  unfold decodeSpecial2 at h
  split at h
  · refine encode_of_mustBeZero (fun hz => ?_) h
    simp only [beq_iff_eq] at hz
    simp [encode, hz]
  · cases h

theorem encode_of_decodePrimary {op : BitVec 6} {rs rt : RegNum} {imm : BitVec 16} {index : BitVec 26} {i : Instr}
    (h : decodePrimary op rs rt imm index = .ok i) : encode i = iType op rs rt imm ∨ encode i = jType op index := by
  unfold decodePrimary at h
  split at h
  case h_17 => cases h
  case h_1 | h_2 =>
    cases h
    exact .inr rfl
  case h_5 | h_6 | h_12 =>
    refine .inl (encode_of_mustBeZero (fun hz => ?_) h)
    simp only [beq_iff_eq] at hz
    simp [encode, hz]
  all_goals
    cases h
    exact .inl rfl

/-- Settles O3: every entry of the decoder keeps all fields of its layout or has tested them, and a word is the layout of
its fields. -/
theorem encodeOfDecode : Obligations.EncodeOfDecode := by
  intro w i h
  by_cases h0 : opcodeOf w = 0x00
  · rw [encode_of_decodeSpecial (decodeWord_special h0 ▸ h), ← h0, rType_fields]
  by_cases h1 : opcodeOf w = 0x01
  · rw [encode_of_decodeRegimm (decodeWord_regimm h1 ▸ h), ← h1, iType_fields]
  by_cases h2 : opcodeOf w = 0x1C
  · rw [encode_of_decodeSpecial2 (decodeWord_special2 h2 ▸ h), ← h2, rType_fields]
  obtain hi | hj := encode_of_decodePrimary (decodeWord_primary ⟨h0, h1, h2⟩ ▸ h)
  · rw [hi, iType_fields]
  · rw [hj, jType_fields]

end Sys2Proof
end

section
/-! The decoder and the rows of the opcode table (R71, R72, R76). -/

namespace Sys2Proof

/-! ## From a decoded word to its row -/

/-- The encoder's word of any instruction meets the test of the instruction's own row. -/
theorem encode_matches_row (i : Instr) : Laws.RowMatch.Statement i := by
  cases i
  case add => exact Laws.RowMatch.add ..
  case addi => exact Laws.RowMatch.addi ..
  case addu => exact Laws.RowMatch.addu ..
  case addiu => exact Laws.RowMatch.addiu ..
  case sub => exact Laws.RowMatch.sub ..
  case slt => exact Laws.RowMatch.slt ..
  case mul => exact Laws.RowMatch.mul ..
  case and => exact Laws.RowMatch.and ..
  case andi => exact Laws.RowMatch.andi ..
  case lui => exact Laws.RowMatch.lui ..
  case or => exact Laws.RowMatch.or ..
  case ori => exact Laws.RowMatch.ori ..
  case xor => exact Laws.RowMatch.xor ..
  case xori => exact Laws.RowMatch.xori ..
  case sllv => exact Laws.RowMatch.sllv ..
  case sll => exact Laws.RowMatch.sll ..
  case srav => exact Laws.RowMatch.srav ..
  case sra => exact Laws.RowMatch.sra ..
  case srlv => exact Laws.RowMatch.srlv ..
  case srl => exact Laws.RowMatch.srl ..
  case beq => exact Laws.RowMatch.beq ..
  case bne => exact Laws.RowMatch.bne ..
  case bgez => exact Laws.RowMatch.bgez ..
  case bgtz => exact Laws.RowMatch.bgtz ..
  case blez => exact Laws.RowMatch.blez ..
  case bltz => exact Laws.RowMatch.bltz ..
  case j => exact Laws.RowMatch.j ..
  case jal => exact Laws.RowMatch.jal ..
  case jr => exact Laws.RowMatch.jr ..
  case jalr => exact Laws.RowMatch.jalr ..
  case lb => exact Laws.RowMatch.lb ..
  case lw => exact Laws.RowMatch.lw ..
  case sb => exact Laws.RowMatch.sb ..
  case sw => exact Laws.RowMatch.sw ..

/-! ## From a row to the decoder -/

/-- Every word that meets the row's test decodes, to the row's instruction. -/
def OpcodeRow.Decodes (r : OpcodeRow) : Prop :=
  ∀ w, r.matches w = true → ∃ i, decodeWord w = .ok i ∧ i.mnemonic = r.mnemonic

/-! A mask is zero or all ones on each field, and an all-ones mask keeps the field. -/

@[simp] theorem and_ones5 (x : BitVec 5) : x &&& 31#5 = x := BitVec.and_allOnes
@[simp] theorem and_ones6 (x : BitVec 6) : x &&& 63#6 = x := BitVec.and_allOnes

/-! One lemma for each mask of R72, over the values of the fields it fixes. -/

section
variable {m : Mnemonic}

theorem decodes_special_sa (f : BitVec 6)
    (hd : ∀ rs rt rd, ∃ i, decodeSpecial rs rt rd 0 f = .ok i ∧ i.mnemonic = m) :
    OpcodeRow.Decodes ⟨m, rType 0x00 0 0 0 0 f, rType 0x3F 0 0 0 0x1F 0x3F⟩ := by
  intro w h
  obtain ⟨hop, hsa, hf⟩ : opcodeOf w = 0x00 ∧ saOf w = 0 ∧ functOf w = f := by simpa [matches_iff] using h
  rw [decodeWord_special hop, hsa, hf]
  exact hd ..

theorem decodes_special_rs (f : BitVec 6)
    (hd : ∀ rt rd sa, ∃ i, decodeSpecial 0 rt rd sa f = .ok i ∧ i.mnemonic = m) :
    OpcodeRow.Decodes ⟨m, rType 0x00 0 0 0 0 f, rType 0x3F 0x1F 0 0 0 0x3F⟩ := by
  intro w h
  obtain ⟨hop, hrs, hf⟩ : opcodeOf w = 0x00 ∧ rsOf w = 0 ∧ functOf w = f := by simpa [matches_iff] using h
  rw [decodeWord_special hop, hrs, hf]
  exact hd ..

theorem decodes_jr : OpcodeRow.Decodes ⟨.jr, rType 0x00 0 0 0 0 0x08, rType 0x3F 0 0x1F 0x1F 0x1F 0x3F⟩ := by
  intro w h
  obtain ⟨hop, hrt, hrd, hsa, hf⟩ : opcodeOf w = 0x00 ∧ rtOf w = 0 ∧ rdOf w = 0 ∧ saOf w = 0 ∧ functOf w = 0x08 := by
    simpa [matches_iff] using h
  rw [decodeWord_special hop, hrt, hrd, hsa, hf]
  exact ⟨_, rfl, rfl⟩

theorem decodes_jalr : OpcodeRow.Decodes ⟨.jalr, rType 0x00 0 0 0 0 0x09, rType 0x3F 0 0x1F 0 0x1F 0x3F⟩ := by
  intro w h
  obtain ⟨hop, hrt, hsa, hf⟩ : opcodeOf w = 0x00 ∧ rtOf w = 0 ∧ saOf w = 0 ∧ functOf w = 0x09 := by
    simpa [matches_iff] using h
  rw [decodeWord_special hop, hrt, hsa, hf]
  exact ⟨_, rfl, rfl⟩

theorem decodes_mul : OpcodeRow.Decodes ⟨.mul, rType 0x1C 0 0 0 0 0x02, rType 0x3F 0 0 0 0x1F 0x3F⟩ := by
  intro w h
  obtain ⟨hop, hsa, hf⟩ : opcodeOf w = 0x1C ∧ saOf w = 0 ∧ functOf w = 0x02 := by simpa [matches_iff] using h
  rw [decodeWord_special2 hop, hsa, hf]
  exact ⟨_, rfl, rfl⟩

theorem decodes_regimm (rt : RegNum) (hd : ∀ rs imm, ∃ i, decodeRegimm rs rt imm = .ok i ∧ i.mnemonic = m) :
    OpcodeRow.Decodes ⟨m, rType 0x01 0 rt 0 0 0, rType 0x3F 0 0x1F 0 0 0⟩ := by
  intro w h
  obtain ⟨hop, hrt⟩ : opcodeOf w = 0x01 ∧ rtOf w = rt := by simpa [matches_iff] using h
  rw [decodeWord_regimm hop, hrt]
  exact hd ..

/-- An opcode with an entry of its own in R73. -/
theorem decodes_primary (op : BitVec 6) (hop : op ≠ 0x00 ∧ op ≠ 0x01 ∧ op ≠ 0x1C)
    (hd : ∀ rs rt imm index, ∃ i, decodePrimary op rs rt imm index = .ok i ∧ i.mnemonic = m) :
    OpcodeRow.Decodes ⟨m, rType op 0 0 0 0 0, rType 0x3F 0 0 0 0 0⟩ := by
  intro w h
  obtain rfl : opcodeOf w = op := by simpa [matches_iff] using h
  rw [decodeWord_primary hop]
  exact hd ..

theorem decodes_primary_rt (op : BitVec 6) (hop : op ≠ 0x00 ∧ op ≠ 0x01 ∧ op ≠ 0x1C)
    (hd : ∀ rs imm index, ∃ i, decodePrimary op rs 0 imm index = .ok i ∧ i.mnemonic = m) :
    OpcodeRow.Decodes ⟨m, rType op 0 0 0 0 0, rType 0x3F 0 0x1F 0 0 0⟩ := by
  intro w h
  obtain ⟨rfl, hrt⟩ : opcodeOf w = op ∧ rtOf w = 0 := by simpa [matches_iff] using h
  rw [decodeWord_primary hop, hrt]
  exact hd ..

theorem decodes_lui : OpcodeRow.Decodes ⟨.lui, rType 0x0F 0 0 0 0 0, rType 0x3F 0x1F 0 0 0 0⟩ := by
  intro w h
  obtain ⟨hop, hrs⟩ : opcodeOf w = 0x0F ∧ rsOf w = 0 := by simpa [matches_iff] using h
  rw [decodeWord_primary (by rw [hop]; decide), hop, hrs]
  exact ⟨_, rfl, rfl⟩

end

theorem arithmeticRows_decode : ∀ r ∈ arithmeticRows, r.Decodes := by
  simp only [arithmeticRows, List.forall_mem_cons]
  refine ⟨?_, ?_, ?_, ?_, ?_, ?_, ?_, List.forall_mem_nil _⟩
  · exact decodes_special_sa 0x20 fun _ _ _ => ⟨_, rfl, rfl⟩
  · exact decodes_primary 0x08 (by decide) fun _ _ _ _ => ⟨_, rfl, rfl⟩
  · exact decodes_special_sa 0x21 fun _ _ _ => ⟨_, rfl, rfl⟩
  · exact decodes_primary 0x09 (by decide) fun _ _ _ _ => ⟨_, rfl, rfl⟩
  · exact decodes_special_sa 0x22 fun _ _ _ => ⟨_, rfl, rfl⟩
  · exact decodes_special_sa 0x2A fun _ _ _ => ⟨_, rfl, rfl⟩
  · exact decodes_mul

theorem logicRows_decode : ∀ r ∈ logicRows, r.Decodes := by
  simp only [logicRows, List.forall_mem_cons]
  refine ⟨?_, ?_, ?_, ?_, ?_, ?_, ?_, List.forall_mem_nil _⟩
  · exact decodes_special_sa 0x24 fun _ _ _ => ⟨_, rfl, rfl⟩
  · exact decodes_primary 0x0C (by decide) fun _ _ _ _ => ⟨_, rfl, rfl⟩
  · exact decodes_lui
  · exact decodes_special_sa 0x25 fun _ _ _ => ⟨_, rfl, rfl⟩
  · exact decodes_primary 0x0D (by decide) fun _ _ _ _ => ⟨_, rfl, rfl⟩
  · exact decodes_special_sa 0x26 fun _ _ _ => ⟨_, rfl, rfl⟩
  · exact decodes_primary 0x0E (by decide) fun _ _ _ _ => ⟨_, rfl, rfl⟩

theorem shiftRows_decode : ∀ r ∈ shiftRows, r.Decodes := by
  simp only [shiftRows, List.forall_mem_cons]
  refine ⟨?_, ?_, ?_, ?_, ?_, ?_, List.forall_mem_nil _⟩
  · exact decodes_special_sa 0x04 fun _ _ _ => ⟨_, rfl, rfl⟩
  · exact decodes_special_rs 0x00 fun _ _ _ => ⟨_, rfl, rfl⟩
  · exact decodes_special_sa 0x07 fun _ _ _ => ⟨_, rfl, rfl⟩
  · exact decodes_special_rs 0x03 fun _ _ _ => ⟨_, rfl, rfl⟩
  · exact decodes_special_sa 0x06 fun _ _ _ => ⟨_, rfl, rfl⟩
  · exact decodes_special_rs 0x02 fun _ _ _ => ⟨_, rfl, rfl⟩

theorem controlRows_decode : ∀ r ∈ controlRows, r.Decodes := by
  simp only [controlRows, List.forall_mem_cons]
  refine ⟨?_, ?_, ?_, ?_, ?_, ?_, ?_, ?_, ?_, ?_, List.forall_mem_nil _⟩
  · exact decodes_primary 0x04 (by decide) fun _ _ _ _ => ⟨_, rfl, rfl⟩
  · exact decodes_primary 0x05 (by decide) fun _ _ _ _ => ⟨_, rfl, rfl⟩
  · exact decodes_regimm 0x01 fun _ _ => ⟨_, rfl, rfl⟩
  · exact decodes_primary_rt 0x07 (by decide) fun _ _ _ => ⟨_, rfl, rfl⟩
  · exact decodes_primary_rt 0x06 (by decide) fun _ _ _ => ⟨_, rfl, rfl⟩
  · exact decodes_regimm 0x00 fun _ _ => ⟨_, rfl, rfl⟩
  · exact decodes_primary 0x02 (by decide) fun _ _ _ _ => ⟨_, rfl, rfl⟩
  · exact decodes_primary 0x03 (by decide) fun _ _ _ _ => ⟨_, rfl, rfl⟩
  · exact decodes_jr
  · exact decodes_jalr

theorem memoryRows_decode : ∀ r ∈ memoryRows, r.Decodes := by
  simp only [memoryRows, List.forall_mem_cons]
  refine ⟨?_, ?_, ?_, ?_, List.forall_mem_nil _⟩
  · exact decodes_primary 0x20 (by decide) fun _ _ _ _ => ⟨_, rfl, rfl⟩
  · exact decodes_primary 0x23 (by decide) fun _ _ _ _ => ⟨_, rfl, rfl⟩
  · exact decodes_primary 0x28 (by decide) fun _ _ _ _ => ⟨_, rfl, rfl⟩
  · exact decodes_primary 0x2B (by decide) fun _ _ _ _ => ⟨_, rfl, rfl⟩

theorem opcodeTable_decodes : ∀ r ∈ opcodeTable, r.Decodes := by
  simp only [opcodeTable, List.forall_mem_append]
  exact ⟨⟨⟨⟨arithmeticRows_decode, logicRows_decode⟩, shiftRows_decode⟩, controlRows_decode⟩, memoryRows_decode⟩

/-! ## The two directions together -/

theorem OpcodeRow.matches_eq_true_iff (r : OpcodeRow) (w : Word) : r.matches w = true ↔ w &&& r.mask = r.bits :=
  beq_iff_eq

theorem row_of_decodeWord {w : Word} {i : Instr} (h : decodeWord w = .ok i) :
    ∃ r ∈ opcodeTable, r.mnemonic = i.mnemonic ∧ r.matches w = true :=
  encodeOfDecode w i h ▸ encode_matches_row i

theorem opcodeTable_mnemonics_nodup : (opcodeTable.map OpcodeRow.mnemonic).Nodup := by decide

/-- Two rows a word meets have the mnemonic of the one instruction it decodes to. -/
theorem row_unique {w : Word} {r r' : OpcodeRow} (hr : r ∈ opcodeTable) (hr' : r' ∈ opcodeTable)
    (h : r.matches w = true) (h' : r'.matches w = true) : r = r' := by
  obtain ⟨i, hi, hm⟩ := opcodeTable_decodes r hr w h
  obtain ⟨j, hj, hm'⟩ := opcodeTable_decodes r' hr' w h'
  obtain rfl : i = j := Except.ok.inj (hi.symm.trans hj)
  exact List.inj_on_of_nodup_map opcodeTable_mnemonics_nodup hr hr' (hm.symm.trans hm')

theorem decodeIn_ok_iff (p : Profile) (w : Word) (i : Instr) :
    decodeIn p w = .ok i ↔ decodeWord w = .ok i ∧ i.mnemonic ∈ p.mnemonics := by
  unfold decodeIn
  cases decodeWord w with
  | error e => simp
  | ok j =>
    by_cases hj : j.mnemonic ∈ p.mnemonics
    · have hout : j = i → i.mnemonic ∈ p.mnemonics := fun h => h ▸ hj
      simpa [hj] using hout
    · have hout : j = i → i.mnemonic ∉ p.mnemonics := fun h => h ▸ hj
      simpa [hj] using hout

/-- Settles O4: a decoded word is the encoder's and so meets its row; each row's fixed fields pick one entry of the
decoder; the other clauses follow from these two. -/
theorem decoderAgreesWithTable : Obligations.DecoderAgreesWithTable := by
  intro w
  simp only [← OpcodeRow.matches_eq_true_iff, ne_eq]
  refine ⟨fun i hi => row_of_decodeWord hi, fun r hr h => opcodeTable_decodes r hr w h,
    fun r hr r' hr' h h' => row_unique hr hr' h h', fun hno => ?_, fun p i => decodeIn_ok_iff p w i⟩
  cases hd : decodeWord w with
  | error e => exact ⟨e, rfl⟩
  | ok i =>
    obtain ⟨r, hr, -, h⟩ := row_of_decodeWord hd
    exact absurd h (hno r hr)

end Sys2Proof
end

section
/-! Every must-be-zero field is tested (R77). -/

namespace Sys2Proof

section
variable {rs rt rd : RegNum} {sa : BitVec 5}

theorem decodeSpecial_sa_ne_zero (hsa : sa ≠ 0) :
    ∀ f ∈ [0x20, 0x21, 0x22, 0x24, 0x25, 0x26, 0x2A, 0x04, 0x06, 0x07],
      ∃ e, decodeSpecial rs rt rd sa (BitVec.ofNat 6 f) = .error e := by
  have hz : (sa == 0) = false := beq_eq_false_iff_ne.2 hsa
  simp only [List.forall_mem_cons]
  refine ⟨?_, ?_, ?_, ?_, ?_, ?_, ?_, ?_, ?_, ?_, List.forall_mem_nil _⟩
  all_goals exact mustBeZero_error hz _

theorem decodeSpecial_rs_ne_zero (hrs : rs ≠ 0) :
    ∀ f ∈ [0x00, 0x02, 0x03], ∃ e, decodeSpecial rs rt rd sa (BitVec.ofNat 6 f) = .error e := by
  have hz : (rs == 0) = false := beq_eq_false_iff_ne.2 hrs
  simp only [List.forall_mem_cons]
  refine ⟨?_, ?_, ?_, List.forall_mem_nil _⟩
  all_goals exact mustBeZero_error hz _
end

/-- Settles O5: each of these words reaches an entry of the decoder whose test is of that field. -/
theorem mustBeZeroFieldsAreChecked : Obligations.MustBeZeroFieldsAreChecked := by
  intro rs rt rd sa imm
  simp only [decodeWord_rType_special]
  refine ⟨fun hsa => ⟨decodeSpecial_sa_ne_zero hsa, ?_⟩, fun hrs => ⟨decodeSpecial_rs_ne_zero hrs, ?_⟩,
    fun hrt => ⟨?_, ?_⟩, fun hjr => ?_, fun hjalr => ?_⟩
  · rw [decodeWord_rType_special2]
    exact mustBeZero_error (beq_eq_false_iff_ne.2 hsa) _
  · rw [decodeWord_iType_primary _ _ _ (by decide)]
    exact mustBeZero_error (beq_eq_false_iff_ne.2 hrs) _
  · rw [decodeWord_iType_primary _ _ _ (by decide)]
    exact mustBeZero_error (beq_eq_false_iff_ne.2 hrt) _
  · rw [decodeWord_iType_primary _ _ _ (by decide)]
    exact mustBeZero_error (beq_eq_false_iff_ne.2 hrt) _
  · exact mustBeZero_error (by simpa [and_assoc] using hjr) _
  · exact mustBeZero_error (by simpa using hjalr) _

end Sys2Proof
end

section
/-! The assembler (R79 to R81): what its lines can be, said once, and the formats of the 34 mnemonics from it. -/

namespace Sys2Proof

open Machine

/-- The operand lists of `i`'s lines: registers and immediates in the order of R79, the one-operand JALR (R80), and every
target with the index's bits (R81). -/
def Instr.HasLine (i : Instr) (ops : List Operand) : Prop :=
  match i with
  | .add a b c | .addu a b c | .sub a b c | .slt a b c | .mul a b c | .and a b c | .or a b c | .xor a b c
  | .sllv a b c | .srav a b c | .srlv a b c => ops = [.reg a, .reg b, .reg c]
  | .addi a b x | .addiu a b x | .beq a b x | .bne a b x => ops = [.reg a, .reg b, .imm x.toInt]
  | .andi a b x | .ori a b x | .xori a b x => ops = [.reg a, .reg b, .imm x.toNat]
  | .sll a b x | .sra a b x | .srl a b x => ops = [.reg a, .reg b, .imm x.toNat]
  | .bgez a x | .bgtz a x | .blez a x | .bltz a x => ops = [.reg a, .imm x.toInt]
  | .lui a x => ops = [.reg a, .imm x.toNat]
  | .lb a x base | .lw a x base | .sb a x base | .sw a x base => ops = [.reg a, .mem x.toInt base]
  | .j x | .jal x => ∃ a : Word, ops = [.target a] ∧ x = indexOfTarget a
  | .jr rs => ops = [.reg rs]
  | .jalr rd rs => ops = [.reg rd, .reg rs] ∨ ops = [.reg rs] ∧ rd = 31

/-- Everything the assembler can answer. -/
theorem assemble_inv {m : Mnemonic} {ops : List Operand} {i : Instr} (h : assemble m ops = some i) :
    m = i.mnemonic ∧ i.HasLine ops := by
  unfold assemble at h
  split at h
  case h_36 => cases h
  -- the signed, the unsigned and the shift-amount operands
  case h_2 | h_4 | h_21 | h_22 | h_23 | h_24 | h_25 | h_26 | h_32 | h_33 | h_34 | h_35 =>
    obtain ⟨x, hx, rfl⟩ := Option.map_eq_some_iff.1 h
    obtain rfl := signed16_eq_some_iff.1 hx
    exact ⟨rfl, rfl⟩
  case h_9 | h_10 | h_12 | h_14 =>
    obtain ⟨x, hx, rfl⟩ := Option.map_eq_some_iff.1 h
    obtain rfl := unsigned16_eq_some_iff.1 hx
    exact ⟨rfl, rfl⟩
  case h_16 | h_18 | h_20 =>
    obtain ⟨x, hx, rfl⟩ := Option.map_eq_some_iff.1 h
    obtain rfl := shift5_eq_some_iff.1 hx
    exact ⟨rfl, rfl⟩
  all_goals obtain rfl := Option.some.inj h
  case h_27 | h_28 => exact ⟨rfl, _, rfl, rfl⟩
  case h_30 => exact ⟨rfl, .inl rfl⟩
  case h_31 => exact ⟨rfl, .inr ⟨rfl, rfl⟩⟩
  all_goals exact ⟨rfl, rfl⟩

/-! ## A format from its two directions: what the mnemonic's instructions have as lines, and what the assembler makes of
such a line -/

section
variable {m : Mnemonic}

theorem threeRegLine_of {f : RegNum → RegNum → RegNum → Instr}
    (hinv : ∀ i ops, m = i.mnemonic ∧ i.HasLine ops → ∃ a b c, ops = [.reg a, .reg b, .reg c] ∧ i = f a b c)
    (hasm : ∀ a b c, assemble m [.reg a, .reg b, .reg c] = some (f a b c)) : ThreeRegLine m f := by
  refine fun ops i => ⟨fun h => hinv i ops (assemble_inv h), ?_⟩
  rintro ⟨a, b, c, rfl, rfl⟩
  exact hasm a b c

theorem twoRegImmLine_of {n : Nat} {value : BitVec n → Int} {parse : Int → Option (BitVec n)}
    {f : RegNum → RegNum → BitVec n → Instr} (hparse : ∀ x, parse (value x) = some x)
    (hinv : ∀ i ops, m = i.mnemonic ∧ i.HasLine ops → ∃ a b x, ops = [.reg a, .reg b, .imm (value x)] ∧ i = f a b x)
    (hasm : ∀ a b v, assemble m [.reg a, .reg b, .imm v] = (parse v).map (f a b)) : TwoRegImmLine m value f := by
  refine fun ops i => ⟨fun h => hinv i ops (assemble_inv h), ?_⟩
  rintro ⟨a, b, x, rfl, rfl⟩
  rw [hasm, hparse, Option.map_some]

theorem oneRegImmLine_of {value : BitVec 16 → Int} {parse : Int → Option (BitVec 16)} {f : RegNum → BitVec 16 → Instr}
    (hparse : ∀ x, parse (value x) = some x)
    (hinv : ∀ i ops, m = i.mnemonic ∧ i.HasLine ops → ∃ a x, ops = [.reg a, .imm (value x)] ∧ i = f a x)
    (hasm : ∀ a v, assemble m [.reg a, .imm v] = (parse v).map (f a)) : OneRegImmLine m value f := by
  refine fun ops i => ⟨fun h => hinv i ops (assemble_inv h), ?_⟩
  rintro ⟨a, x, rfl, rfl⟩
  rw [hasm, hparse, Option.map_some]

theorem memLine_of {f : RegNum → BitVec 16 → RegNum → Instr}
    (hinv : ∀ i ops, m = i.mnemonic ∧ i.HasLine ops → ∃ a x base, ops = [.reg a, .mem x.toInt base] ∧ i = f a x base)
    (hasm : ∀ a o base, assemble m [.reg a, .mem o base] = (signed16 o).map (f a · base)) : MemLine m f := by
  refine fun ops i => ⟨fun h => hinv i ops (assemble_inv h), ?_⟩
  rintro ⟨a, x, base, rfl, rfl⟩
  rw [hasm, signed16_toInt, Option.map_some]

theorem indexOfTarget_eq_iff (a : Word) (x : BitVec 26) : x = indexOfTarget a ↔ x.toNat = a.toNat / 4 % 2 ^ 26 := by
  rw [← indexOfTarget_toNat, BitVec.toNat_inj]

theorem targetLine_of {f : BitVec 26 → Instr}
    (hinv : ∀ i ops, m = i.mnemonic ∧ i.HasLine ops → ∃ a x, ops = [.target a] ∧ x = indexOfTarget a ∧ i = f x)
    (hasm : ∀ a, assemble m [.target a] = some (f (indexOfTarget a))) : TargetLine m f := by
  intro ops i
  simp only [← indexOfTarget_eq_iff]
  refine ⟨fun h => hinv i ops (assemble_inv h), ?_⟩
  rintro ⟨a, x, rfl, rfl, rfl⟩
  exact hasm a

end

/-! ## The ranges of the immediates, and a line for every instruction -/

theorem exists_toInt_eq_iff (v : Int) : (∃ x : BitVec 16, x.toInt = v) ↔ -32768 ≤ v ∧ v ≤ 32767 := by
  constructor
  · rintro ⟨x, rfl⟩
    have := imm_toInt_bounds x
    omega
  · exact fun hv => ⟨_, (signed16_eq_some_iff.1 (if_pos hv)).symm⟩

theorem exists_toNat16_eq_iff (v : Int) : (∃ x : BitVec 16, (x.toNat : Int) = v) ↔ 0 ≤ v ∧ v ≤ 65535 := by
  constructor
  · rintro ⟨x, rfl⟩
    omega
  · exact fun hv => ⟨_, (unsigned16_eq_some_iff.1 (if_pos hv)).symm⟩

theorem exists_toNat5_eq_iff (v : Int) : (∃ x : BitVec 5, (x.toNat : Int) = v) ↔ 0 ≤ v ∧ v ≤ 31 := by
  constructor
  · rintro ⟨x, rfl⟩
    omega
  · exact fun hv => ⟨_, (shift5_eq_some_iff.1 (if_pos hv)).symm⟩

theorem indexOfTarget_append (x : BitVec 26) : indexOfTarget (0#4 ++ x ++ 0#2) = x := by
  refine ((indexOfTarget_eq_iff _ _).2 ?_).symm
  rw [toNat_append_eq (0#4 ++ x), toNat_append_eq, BitVec.toNat_zero, BitVec.toNat_zero]
  omega

/-- The line of an instruction; of the targets of J and JAL, the one in the lowest region. -/
theorem exists_line (i : Instr) : ∃ ops, assemble i.mnemonic ops = some i := by
  cases i
  case addi a b x | addiu a b x | beq a b x | bne a b x =>
    exact ⟨[.reg a, .reg b, .imm x.toInt], congrArg (Option.map _) (signed16_toInt x)⟩
  case andi a b x | ori a b x | xori a b x =>
    exact ⟨[.reg a, .reg b, .imm x.toNat], congrArg (Option.map _) (unsigned16_toNat x)⟩
  case sll a b x | sra a b x | srl a b x =>
    exact ⟨[.reg a, .reg b, .imm x.toNat], congrArg (Option.map _) (shift5_toNat x)⟩
  case bgez a x | bgtz a x | blez a x | bltz a x =>
    exact ⟨[.reg a, .imm x.toInt], congrArg (Option.map _) (signed16_toInt x)⟩
  case lui a x => exact ⟨[.reg a, .imm x.toNat], congrArg (Option.map _) (unsigned16_toNat x)⟩
  case lb a x base | lw a x base | sb a x base | sw a x base =>
    exact ⟨[.reg a, .mem x.toInt base], congrArg (Option.map _) (signed16_toInt x)⟩
  case j x | jal x =>
    exact ⟨[.target (0#4 ++ x ++ 0#2)], congrArg (some ∘ _) (indexOfTarget_append x)⟩
  case jr rs => exact ⟨[.reg rs], rfl⟩
  case jalr rd rs => exact ⟨[.reg rd, .reg rs], rfl⟩
  all_goals exact ⟨[.reg _, .reg _, .reg _], rfl⟩

/-! ## The formats -/

theorem threeRegLines :
    ThreeRegLine .add (fun rd rs rt => .add rd rs rt) ∧ ThreeRegLine .addu (fun rd rs rt => .addu rd rs rt) ∧
    ThreeRegLine .sub (fun rd rs rt => .sub rd rs rt) ∧ ThreeRegLine .slt (fun rd rs rt => .slt rd rs rt) ∧
    ThreeRegLine .mul (fun rd rs rt => .mul rd rs rt) ∧ ThreeRegLine .and (fun rd rs rt => .and rd rs rt) ∧
    ThreeRegLine .or (fun rd rs rt => .or rd rs rt) ∧ ThreeRegLine .xor (fun rd rs rt => .xor rd rs rt) ∧
    ThreeRegLine .sllv (fun rd rt rs => .sllv rd rt rs) ∧ ThreeRegLine .srav (fun rd rt rs => .srav rd rt rs) ∧
    ThreeRegLine .srlv (fun rd rt rs => .srlv rd rt rs) :=
  ⟨threeRegLine_of (fun | .add .., _, ⟨_, h⟩ => ⟨_, _, _, h, rfl⟩) fun _ _ _ => rfl,
   threeRegLine_of (fun | .addu .., _, ⟨_, h⟩ => ⟨_, _, _, h, rfl⟩) fun _ _ _ => rfl,
   threeRegLine_of (fun | .sub .., _, ⟨_, h⟩ => ⟨_, _, _, h, rfl⟩) fun _ _ _ => rfl,
   threeRegLine_of (fun | .slt .., _, ⟨_, h⟩ => ⟨_, _, _, h, rfl⟩) fun _ _ _ => rfl,
   threeRegLine_of (fun | .mul .., _, ⟨_, h⟩ => ⟨_, _, _, h, rfl⟩) fun _ _ _ => rfl,
   threeRegLine_of (fun | .and .., _, ⟨_, h⟩ => ⟨_, _, _, h, rfl⟩) fun _ _ _ => rfl,
   threeRegLine_of (fun | .or .., _, ⟨_, h⟩ => ⟨_, _, _, h, rfl⟩) fun _ _ _ => rfl,
   threeRegLine_of (fun | .xor .., _, ⟨_, h⟩ => ⟨_, _, _, h, rfl⟩) fun _ _ _ => rfl,
   threeRegLine_of (fun | .sllv .., _, ⟨_, h⟩ => ⟨_, _, _, h, rfl⟩) fun _ _ _ => rfl,
   threeRegLine_of (fun | .srav .., _, ⟨_, h⟩ => ⟨_, _, _, h, rfl⟩) fun _ _ _ => rfl,
   threeRegLine_of (fun | .srlv .., _, ⟨_, h⟩ => ⟨_, _, _, h, rfl⟩) fun _ _ _ => rfl⟩

theorem twoRegImmLines :
    TwoRegImmLine .addi BitVec.toInt (fun rt rs imm => .addi rt rs imm) ∧
    TwoRegImmLine .addiu BitVec.toInt (fun rt rs imm => .addiu rt rs imm) ∧
    TwoRegImmLine .andi (fun x => x.toNat) (fun rt rs (imm : BitVec 16) => .andi rt rs imm) ∧
    TwoRegImmLine .ori (fun x => x.toNat) (fun rt rs (imm : BitVec 16) => .ori rt rs imm) ∧
    TwoRegImmLine .xori (fun x => x.toNat) (fun rt rs (imm : BitVec 16) => .xori rt rs imm) ∧
    TwoRegImmLine .sll (fun x => x.toNat) (fun rd rt (sa : BitVec 5) => .sll rd rt sa) ∧
    TwoRegImmLine .sra (fun x => x.toNat) (fun rd rt (sa : BitVec 5) => .sra rd rt sa) ∧
    TwoRegImmLine .srl (fun x => x.toNat) (fun rd rt (sa : BitVec 5) => .srl rd rt sa) ∧
    TwoRegImmLine .beq BitVec.toInt (fun rs rt offset => .beq rs rt offset) ∧
    TwoRegImmLine .bne BitVec.toInt (fun rs rt offset => .bne rs rt offset) :=
  ⟨twoRegImmLine_of signed16_toInt (fun | .addi .., _, ⟨_, h⟩ => ⟨_, _, _, h, rfl⟩) fun _ _ _ => rfl,
   twoRegImmLine_of signed16_toInt (fun | .addiu .., _, ⟨_, h⟩ => ⟨_, _, _, h, rfl⟩) fun _ _ _ => rfl,
   twoRegImmLine_of unsigned16_toNat (fun | .andi .., _, ⟨_, h⟩ => ⟨_, _, _, h, rfl⟩) fun _ _ _ => rfl,
   twoRegImmLine_of unsigned16_toNat (fun | .ori .., _, ⟨_, h⟩ => ⟨_, _, _, h, rfl⟩) fun _ _ _ => rfl,
   twoRegImmLine_of unsigned16_toNat (fun | .xori .., _, ⟨_, h⟩ => ⟨_, _, _, h, rfl⟩) fun _ _ _ => rfl,
   twoRegImmLine_of shift5_toNat (fun | .sll .., _, ⟨_, h⟩ => ⟨_, _, _, h, rfl⟩) fun _ _ _ => rfl,
   twoRegImmLine_of shift5_toNat (fun | .sra .., _, ⟨_, h⟩ => ⟨_, _, _, h, rfl⟩) fun _ _ _ => rfl,
   twoRegImmLine_of shift5_toNat (fun | .srl .., _, ⟨_, h⟩ => ⟨_, _, _, h, rfl⟩) fun _ _ _ => rfl,
   twoRegImmLine_of signed16_toInt (fun | .beq .., _, ⟨_, h⟩ => ⟨_, _, _, h, rfl⟩) fun _ _ _ => rfl,
   twoRegImmLine_of signed16_toInt (fun | .bne .., _, ⟨_, h⟩ => ⟨_, _, _, h, rfl⟩) fun _ _ _ => rfl⟩

theorem oneRegImmLines :
    OneRegImmLine .lui (fun x => x.toNat) (fun rt imm => .lui rt imm) ∧
    OneRegImmLine .bgez BitVec.toInt (fun rs offset => .bgez rs offset) ∧
    OneRegImmLine .bgtz BitVec.toInt (fun rs offset => .bgtz rs offset) ∧
    OneRegImmLine .blez BitVec.toInt (fun rs offset => .blez rs offset) ∧
    OneRegImmLine .bltz BitVec.toInt (fun rs offset => .bltz rs offset) :=
  ⟨oneRegImmLine_of unsigned16_toNat (fun | .lui .., _, ⟨_, h⟩ => ⟨_, _, h, rfl⟩) fun _ _ => rfl,
   oneRegImmLine_of signed16_toInt (fun | .bgez .., _, ⟨_, h⟩ => ⟨_, _, h, rfl⟩) fun _ _ => rfl,
   oneRegImmLine_of signed16_toInt (fun | .bgtz .., _, ⟨_, h⟩ => ⟨_, _, h, rfl⟩) fun _ _ => rfl,
   oneRegImmLine_of signed16_toInt (fun | .blez .., _, ⟨_, h⟩ => ⟨_, _, h, rfl⟩) fun _ _ => rfl,
   oneRegImmLine_of signed16_toInt (fun | .bltz .., _, ⟨_, h⟩ => ⟨_, _, h, rfl⟩) fun _ _ => rfl⟩

theorem memLines :
    MemLine .lb (fun rt offset base => .lb rt offset base) ∧ MemLine .lw (fun rt offset base => .lw rt offset base) ∧
    MemLine .sb (fun rt offset base => .sb rt offset base) ∧ MemLine .sw (fun rt offset base => .sw rt offset base) :=
  ⟨memLine_of (fun | .lb .., _, ⟨_, h⟩ => ⟨_, _, _, h, rfl⟩) fun _ _ _ => rfl,
   memLine_of (fun | .lw .., _, ⟨_, h⟩ => ⟨_, _, _, h, rfl⟩) fun _ _ _ => rfl,
   memLine_of (fun | .sb .., _, ⟨_, h⟩ => ⟨_, _, _, h, rfl⟩) fun _ _ _ => rfl,
   memLine_of (fun | .sw .., _, ⟨_, h⟩ => ⟨_, _, _, h, rfl⟩) fun _ _ _ => rfl⟩

theorem targetLines :
    TargetLine .j (fun index => .j index) ∧ TargetLine .jal (fun index => .jal index) :=
  ⟨targetLine_of (fun | .j _, _, ⟨_, _, h, hx⟩ => ⟨_, _, h, hx, rfl⟩) fun _ => rfl,
   targetLine_of (fun | .jal _, _, ⟨_, _, h, hx⟩ => ⟨_, _, h, hx, rfl⟩) fun _ => rfl⟩

theorem jrLine (ops : List Operand) (i : Instr) : assemble .jr ops = some i ↔ ∃ rs, ops = [.reg rs] ∧ i = .jr rs := by
  constructor
  · exact fun h => match i, assemble_inv h with
      | .jr _, ⟨_, hops⟩ => ⟨_, hops, rfl⟩
  · rintro ⟨rs, rfl, rfl⟩
    rfl

theorem jalrLine (ops : List Operand) (i : Instr) : assemble .jalr ops = some i ↔
    (∃ rd rs, ops = [.reg rd, .reg rs] ∧ i = .jalr rd rs) ∨ ∃ rs, ops = [.reg rs] ∧ i = .jalr 31 rs := by
  constructor
  · exact fun h => match i, assemble_inv h with
      | .jalr _ _, ⟨_, .inl hops⟩ => .inl ⟨_, _, hops, rfl⟩
      | .jalr _ _, ⟨_, .inr ⟨hops, hrd⟩⟩ => .inr ⟨_, hops, hrd ▸ rfl⟩
  · rintro (⟨rd, rs, rfl, rfl⟩ | ⟨rs, rfl, rfl⟩) <;> rfl

/-- Settles O7: what the assembler can answer, read format by format, and the ranges of its numbers. -/
theorem assemblyFormats : Obligations.AssemblyFormats :=
  ⟨threeRegLines, twoRegImmLines, oneRegImmLines, memLines, targetLines, jrLine, jalrLine, exists_toInt_eq_iff,
    exists_toNat16_eq_iff, exists_toNat5_eq_iff, exists_line, rfl⟩

end Sys2Proof
end

section
/-! The arithmetic instructions (40_arithmetic.md): the 33-bit test as the sign rule, the words of results modulo 2^32,
and the seven instructions by their shared endings `writeUnlessOverflow` and `writeBack`. -/

namespace Sys2Proof.Machine

/-! ## The overflow test (R101, R211) -/

section
variable (a b : Word)

theorem overflows_add_iff :
    overflows (sext33 a + sext33 b) = true ↔ a.toInt + b.toInt < -2 ^ 31 ∨ 2 ^ 31 - 1 < a.toInt + b.toInt := by
  rw [overflows_iff, sext33_add_toInt]

theorem overflows_sub_iff :
    overflows (sext33 a - sext33 b) = true ↔ a.toInt - b.toInt < -2 ^ 31 ∨ 2 ^ 31 - 1 < a.toInt - b.toInt := by
  rw [overflows_iff, sext33_sub_toInt]

/-- The source's test is the library's signed overflow of a 32-bit addition. -/
theorem overflows_add_eq : overflows (sext33 a + sext33 b) = a.saddOverflow b := by
  rw [Bool.eq_iff_iff, overflows_add_iff, BitVec.saddOverflow, Bool.or_eq_true, decide_eq_true_eq, decide_eq_true_eq]
  omega

/-- The source's test is the library's signed overflow of a 32-bit subtraction. -/
theorem overflows_sub_eq : overflows (sext33 a - sext33 b) = a.ssubOverflow b := by
  rw [Bool.eq_iff_iff, overflows_sub_iff, BitVec.ssubOverflow, Bool.or_eq_true, decide_eq_true_eq, decide_eq_true_eq]
  omega

theorem overflows_add_iff_msb :
    overflows (sext33 a + sext33 b) = true ↔ a.msb = b.msb ∧ (a + b).msb ≠ a.msb := by
  rw [overflows_add_eq, BitVec.saddOverflow_eq]
  cases a.msb <;> cases b.msb <;> simp

theorem overflows_sub_iff_msb :
    overflows (sext33 a - sext33 b) = true ↔ a.msb ≠ b.msb ∧ (a - b).msb = b.msb := by
  rw [overflows_sub_eq, BitVec.ssubOverflow_eq]
  cases a.msb <;> cases b.msb <;> simp
end

/-- Settles O23: the 33-bit value is exact, so the test is that of its range; the library has the sign rule. -/
theorem overflowTestIsExact : Obligations.OverflowTestIsExact := fun a b =>
  ⟨overflows_add_iff a b, overflows_sub_iff a b, overflows_add_iff_msb a b, overflows_sub_iff_msb a b⟩

/-! ## The seven arms of `exec` -/

section
variable (rd rs rt : RegNum) (imm : BitVec 16) (s : State)

theorem exec_add : exec (.add rd rs rt) s = writeUnlessOverflow s rd (sext33 (s.reg rs) + sext33 (s.reg rt)) := rfl

theorem exec_sub : exec (.sub rd rs rt) s = writeUnlessOverflow s rd (sext33 (s.reg rs) - sext33 (s.reg rt)) := rfl

theorem exec_addi : exec (.addi rt rs imm) s = writeUnlessOverflow s rt (sext33 (s.reg rs) + sext33Imm imm) := rfl

theorem exec_addu : exec (.addu rd rs rt) s = writeBack s rd (s.reg rs + s.reg rt) := rfl

theorem exec_addiu : exec (.addiu rt rs imm) s = writeBack s rt (s.reg rs + sextImm imm) := rfl

theorem exec_slt : exec (.slt rd rs rt) s = writeBack s rd (if (s.reg rs).slt (s.reg rt) then 1 else 0) := rfl

theorem exec_mul : exec (.mul rd rs rt) s =
    writeBack s rd (((s.reg rs).signExtend 64 * (s.reg rt).signExtend 64).setWidth 32) := rfl
end

/-! ## The raising instructions: ADD, SUB, ADDI (R103, R104, R107) -/

theorem writeUnlessOverflow_writes {tmp : BitVec 33} (hlo : -2 ^ 31 ≤ tmp.toInt) (hhi : tmp.toInt ≤ 2 ^ 31 - 1)
    (s : State) (rd : RegNum) :
    ∃ t, writeUnlessOverflow s rd tmp = .next t ∧ WritesOnly s t rd (BitVec.ofInt 32 tmp.toInt) := by
  have h : ¬ overflows tmp = true := by
    rw [overflows_iff]
    omega
  rw [writeUnlessOverflow, if_neg h, low32_eq]
  exact writeBack_spec s rd _

/-- A 33-bit result that stands for `v` is written when `v` fits in a word, and raises when it does not. -/
theorem writeUnlessOverflow_exact {tmp : BitVec 33} {v : Int} (hv : tmp.toInt = v) (s : State) (rd : RegNum) :
    (-2 ^ 31 ≤ v → v ≤ 2 ^ 31 - 1 →
      ∃ t, writeUnlessOverflow s rd tmp = .next t ∧ WritesOnly s t rd (BitVec.ofInt 32 v)) ∧
    (v < -2 ^ 31 ∨ 2 ^ 31 - 1 < v →
      ∃ t, writeUnlessOverflow s rd tmp = .next t ∧ RaisesOnly s t (.integerOverflow s.pc)) := by
  subst hv
  exact ⟨fun hlo hhi => writeUnlessOverflow_writes hlo hhi s rd, fun h => writeUnlessOverflow_raises h s rd⟩

/-- Settles O18: the 33-bit sum and difference are exact. -/
theorem addAndSub : Obligations.AddAndSub := by
  intro rd rs rt s
  obtain ⟨hadd, hadd'⟩ := writeUnlessOverflow_exact (sext33_add_toInt (s.reg rs) (s.reg rt)) s rd
  obtain ⟨hsub, hsub'⟩ := writeUnlessOverflow_exact (sext33_sub_toInt (s.reg rs) (s.reg rt)) s rd
  rw [exec_add, exec_sub]
  exact ⟨decodeWord_encode (.add rd rs rt), decodeWord_encode (.sub rd rs rt), hadd, hadd', hsub, hsub'⟩

/-- Settles O19: the 33-bit sum with the widened immediate is exact. -/
theorem addImmediate : Obligations.AddImmediate := by
  intro rt rs imm s
  rw [exec_addi]
  exact ⟨decodeWord_encode (.addi rt rs imm), writeUnlessOverflow_exact (sext33_addImm_toInt (s.reg rs) imm) s rt⟩

/-! ## The others: ADDU, ADDIU, SLT, MUL (R105, R106, R108, R109) -/

theorem add_sextImm_eq_ofInt (a : Word) (imm : BitVec 16) :
    a + sextImm imm = BitVec.ofInt 32 (a.toNat + imm.toInt) := by
  rw [BitVec.ofInt_add, BitVec.ofInt_natCast, BitVec.ofNat_toNat, BitVec.setWidth_eq, ← sextImm_toInt,
    BitVec.ofInt_toInt]

theorem setWidth_signExtend (a : Word) : (a.signExtend 64).setWidth 32 = a := by
  ext k hk
  have hk' : k < 64 := by omega
  rw [BitVec.getElem_setWidth, BitVec.getLsbD_signExtend, decide_eq_true hk', if_pos hk, Bool.true_and,
    BitVec.getLsbD_eq_getElem hk]

/-- The widening of the operands does not reach the low word of their product. -/
theorem setWidth_mul_signExtend (a b : Word) : (a.signExtend 64 * b.signExtend 64).setWidth 32 = a * b := by
  rw [BitVec.setWidth_mul _ _ (by decide), setWidth_signExtend, setWidth_signExtend]

theorem mul_eq_ofInt (a b : Word) : a * b = BitVec.ofInt 32 (a.toInt * b.toInt) := by
  rw [BitVec.ofInt_mul, BitVec.ofInt_toInt, BitVec.ofInt_toInt]

theorem mul_eq_ofNat (a b : Word) : a * b = BitVec.ofNat 32 (a.toNat * b.toNat) := by
  rw [BitVec.ofNat_mul, BitVec.ofNat_toNat, BitVec.ofNat_toNat, BitVec.setWidth_eq, BitVec.setWidth_eq]

/-- Settles O20: word addition is the sum modulo 2^32. -/
theorem adduAndAddiu : Obligations.AdduAndAddiu := by
  intro rd rs rt imm s
  rw [exec_addu, exec_addiu, BitVec.add_def, add_sextImm_eq_ofInt]
  exact ⟨decodeWord_encode (.addu rd rs rt), decodeWord_encode (.addiu rt rs imm), writeBack_spec s rd _,
    writeBack_spec s rt _⟩

/-- Settles O21: the signed comparison of words is that of their signed values. -/
theorem setOnLessThan : Obligations.SetOnLessThan := by
  intro rd rs rt s
  rw [exec_slt]
  simp only [BitVec.slt_iff_toInt_lt]
  exact ⟨decodeWord_encode (.slt rd rs rt), writeBack_spec s rd _⟩

/-- Settles O22: the low word of the 64-bit product is the product of words, which is that of the signed and of the
unsigned values modulo 2^32. -/
theorem multiplyLowWord : Obligations.MultiplyLowWord := by
  intro rd rs rt s
  rw [exec_mul, setWidth_mul_signExtend, ← mul_eq_ofInt, ← mul_eq_ofNat]
  obtain ⟨t, ht, hw⟩ := writeBack_spec s rd (s.reg rs * s.reg rt)
  exact ⟨decodeWord_encode (.mul rd rs rt), t, ht, hw, hw⟩

end Sys2Proof.Machine
end

section
/-! The logic instructions (41_logic.md): the bits of the extended immediates, and the seven instructions by their shared
ending `writeBack`. -/

namespace Sys2Proof.Machine

/-! ## The seven arms of `exec` -/

section
variable (rd rs rt : RegNum) (imm : BitVec 16) (s : State)

theorem exec_and : exec (.and rd rs rt) s = writeBack s rd (s.reg rs &&& s.reg rt) := rfl

theorem exec_or : exec (.or rd rs rt) s = writeBack s rd (s.reg rs ||| s.reg rt) := rfl

theorem exec_xor : exec (.xor rd rs rt) s = writeBack s rd (s.reg rs ^^^ s.reg rt) := rfl

theorem exec_andi : exec (.andi rt rs imm) s = writeBack s rt (s.reg rs &&& zextImm imm) := rfl

theorem exec_ori : exec (.ori rt rs imm) s = writeBack s rt (s.reg rs ||| zextImm imm) := rfl

theorem exec_xori : exec (.xori rt rs imm) s = writeBack s rt (s.reg rs ^^^ zextImm imm) := rfl

theorem exec_lui : exec (.lui rt imm) s = writeBack s rt (upperImm imm) := rfl
end

/-- What is known of the value handed to `writeBack` is known of the value written. -/
theorem writeBack_spec_of {p : Word → Prop} {v : Word} (hv : p v) (s : State) (rd : RegNum) :
    ∃ t w, writeBack s rd v = .next t ∧ WritesOnly s t rd w ∧ p w := by
  obtain ⟨t, ht, hw⟩ := writeBack_spec s rd v
  exact ⟨t, v, ht, hw, hv⟩

/-- Settles O24: the library's bitwise operations act on each bit. -/
theorem bitwiseRegisterForms : Obligations.BitwiseRegisterForms := by
  intro rd rs rt s
  rw [exec_and, exec_or, exec_xor]
  exact ⟨decodeWord_encode (.and rd rs rt), decodeWord_encode (.or rd rs rt), decodeWord_encode (.xor rd rs rt),
    writeBack_spec_of (fun _ => BitVec.getLsbD_and) s rd, writeBack_spec_of (fun _ => BitVec.getLsbD_or) s rd,
    writeBack_spec_of (fun _ => BitVec.getLsbD_xor) s rd⟩

/-! ## The zero-extended immediate: ANDI, ORI, XORI (R66, R122, R125, R127) -/

section
variable (a : Word) (imm : BitVec 16) {k : Nat}

theorem zextImm_getLsbD_low (h : k < 16) : (zextImm imm).getLsbD k = imm.getLsbD k := by
  have hk : k < 32 := by omega
  rw [zextImm, BitVec.getLsbD_setWidth, decide_eq_true hk, Bool.true_and]

theorem zextImm_getLsbD_high (h : 16 ≤ k) : (zextImm imm).getLsbD k = false := by
  rw [zextImm, BitVec.getLsbD_setWidth, BitVec.getLsbD_of_ge imm k h, Bool.and_false]

theorem and_zextImm_bits :
    (∀ k < 16, (a &&& zextImm imm).getLsbD k = (a.getLsbD k && imm.getLsbD k)) ∧
    ∀ k, 16 ≤ k → (a &&& zextImm imm).getLsbD k = false := by
  constructor <;> intro k hk
  · rw [BitVec.getLsbD_and, zextImm_getLsbD_low imm hk]
  · rw [BitVec.getLsbD_and, zextImm_getLsbD_high imm hk, Bool.and_false]

theorem or_zextImm_bits :
    (∀ k < 16, (a ||| zextImm imm).getLsbD k = (a.getLsbD k || imm.getLsbD k)) ∧
    ∀ k, 16 ≤ k → (a ||| zextImm imm).getLsbD k = a.getLsbD k := by
  constructor <;> intro k hk
  · rw [BitVec.getLsbD_or, zextImm_getLsbD_low imm hk]
  · rw [BitVec.getLsbD_or, zextImm_getLsbD_high imm hk, Bool.or_false]

theorem xor_zextImm_bits :
    (∀ k < 16, (a ^^^ zextImm imm).getLsbD k = (a.getLsbD k ^^ imm.getLsbD k)) ∧
    ∀ k, 16 ≤ k → (a ^^^ zextImm imm).getLsbD k = a.getLsbD k := by
  constructor <;> intro k hk
  · rw [BitVec.getLsbD_xor, zextImm_getLsbD_low imm hk]
  · rw [BitVec.getLsbD_xor, zextImm_getLsbD_high imm hk, Bool.xor_false]
end

/-- Settles O25: below bit 16 the extended immediate has the immediate's bits, above it zeros. -/
theorem bitwiseImmediateForms : Obligations.BitwiseImmediateForms := by
  intro rt rs imm s
  rw [exec_andi, exec_ori, exec_xori]
  exact ⟨decodeWord_encode (.andi rt rs imm), decodeWord_encode (.ori rt rs imm), decodeWord_encode (.xori rt rs imm),
    writeBack_spec_of (and_zextImm_bits (s.reg rs) imm) s rt, writeBack_spec_of (or_zextImm_bits (s.reg rs) imm) s rt,
    writeBack_spec_of (xor_zextImm_bits (s.reg rs) imm) s rt⟩

/-! ## The immediate in the high half: LUI (R67, R123) -/

theorem upperImm_eq_ofNat (imm : BitVec 16) : upperImm imm = BitVec.ofNat 32 (imm.toNat * 2 ^ 16) := by
  rw [← upperImm_toNat, BitVec.ofNat_toNat, BitVec.setWidth_eq]

/-- Settles O26: the immediate over sixteen zeros is 2^16 times it. -/
theorem loadUpperImmediate : Obligations.LoadUpperImmediate := by
  intro rt imm s
  rw [exec_lui, upperImm_eq_ofNat]
  exact ⟨decodeWord_encode (.lui rt imm), writeBack_spec s rt _⟩

end Sys2Proof.Machine
end

section
/-! The shift instructions (42_shift.md): the library's shifts as multiplication and division by powers of two, and the six
instructions by their shared ending `writeBack`. -/

namespace Sys2Proof.Machine

/-! ## The six arms of `exec`, the variable amount taken modulo 32 (R140) -/

section
variable (rd rt rs : RegNum) (sa : BitVec 5) (s : State)

theorem exec_sllv : exec (.sllv rd rt rs) s = writeBack s rd (s.reg rt <<< ((s.reg rs).toNat % 32)) := by
  rw [← shiftAmount_toNat]
  rfl

theorem exec_sll : exec (.sll rd rt sa) s = writeBack s rd (s.reg rt <<< sa.toNat) := rfl

theorem exec_srav : exec (.srav rd rt rs) s = writeBack s rd ((s.reg rt).sshiftRight ((s.reg rs).toNat % 32)) := by
  rw [← shiftAmount_toNat]
  rfl

theorem exec_sra : exec (.sra rd rt sa) s = writeBack s rd ((s.reg rt).sshiftRight sa.toNat) := rfl

theorem exec_srlv : exec (.srlv rd rt rs) s = writeBack s rd (s.reg rt >>> ((s.reg rs).toNat % 32)) := by
  rw [← shiftAmount_toNat]
  rfl

theorem exec_srl : exec (.srl rd rt sa) s = writeBack s rd (s.reg rt >>> sa.toNat) := rfl
end

/-! ## Shifts as arithmetic -/

section
variable (a : Word) (n : Nat)

theorem shiftLeft_eq_ofNat : a <<< n = BitVec.ofNat 32 (a.toNat * 2 ^ n) := by
  apply BitVec.eq_of_toNat_eq
  rw [BitVec.toNat_shiftLeft, Nat.shiftLeft_eq, BitVec.toNat_ofNat]

theorem sshiftRight_eq_ofInt : a.sshiftRight n = BitVec.ofInt 32 (a.toInt.fdiv (2 ^ n)) := by
  have hpow : (0 : Int) ≤ 2 ^ n := Int.pow_nonneg (by decide)
  rw [BitVec.sshiftRight, Int.shiftRight_eq_div_pow, Int.fdiv_eq_ediv_of_nonneg _ hpow, Nat.cast_pow, Nat.cast_ofNat]

theorem ushiftRight_eq_ofNat : a >>> n = BitVec.ofNat 32 (a.toNat / 2 ^ n) := by
  rw [← Nat.shiftRight_eq_div_pow, ← BitVec.toNat_ushiftRight, BitVec.ofNat_toNat, BitVec.setWidth_eq]
end

/-! ## The obligations -/

/-- Settles O27: a shift to the left is multiplication by a power of two modulo 2^32. -/
theorem shiftLeftLogical : Obligations.ShiftLeftLogical := by
  intro rd rt rs sa s
  rw [exec_sllv, exec_sll, shiftLeft_eq_ofNat, shiftLeft_eq_ofNat]
  exact ⟨decodeWord_encode (.sllv rd rt rs), decodeWord_encode (.sll rd rt sa), writeBack_spec s rd _,
    writeBack_spec s rd _⟩

/-- Settles O28: an arithmetic shift to the right divides the signed value, rounding down. -/
theorem shiftRightArithmetic : Obligations.ShiftRightArithmetic := by
  intro rd rt rs sa s
  rw [exec_srav, exec_sra, sshiftRight_eq_ofInt, sshiftRight_eq_ofInt]
  exact ⟨decodeWord_encode (.srav rd rt rs), decodeWord_encode (.sra rd rt sa), writeBack_spec s rd _,
    writeBack_spec s rd _⟩

/-- Settles O29: a logical shift to the right divides the unsigned value, rounding down. -/
theorem shiftRightLogical : Obligations.ShiftRightLogical := by
  intro rd rt rs sa s
  rw [exec_srlv, exec_srl, ushiftRight_eq_ofNat, ushiftRight_eq_ofNat]
  exact ⟨decodeWord_encode (.srlv rd rt rs), decodeWord_encode (.srl rd rt sa), writeBack_spec s rd _,
    writeBack_spec s rd _⟩

end Sys2Proof.Machine
end

section
/-! The branches and jumps (43_branch_jump.md): the ten arms of `exec`, each by its shared ending `branch`, `transfer` or
`transferLink`, and what happens in the delay slot and at its end (R160, R161, R175). -/

namespace Sys2Proof.Machine

/-! ## The ten arms of `exec` -/

section
variable (rd rs rt : RegNum) (offset : BitVec 16) (index : BitVec 26) (s : State)

theorem exec_beq : exec (.beq rs rt offset) s = branch s (s.reg rs == s.reg rt) offset := rfl

theorem exec_bne : exec (.bne rs rt offset) s = branch s (s.reg rs != s.reg rt) offset := rfl

theorem exec_bgez : exec (.bgez rs offset) s = branch s (geZero (s.reg rs)) offset := rfl

theorem exec_bgtz : exec (.bgtz rs offset) s = branch s (gtZero (s.reg rs)) offset := rfl

theorem exec_blez : exec (.blez rs offset) s = branch s (leZero (s.reg rs)) offset := rfl

theorem exec_bltz : exec (.bltz rs offset) s = branch s (ltZero (s.reg rs)) offset := rfl

theorem exec_j : exec (.j index) s = transfer s (jumpTarget s.pc index) := rfl

theorem exec_jal : exec (.jal index) s = transferLink s 31 (jumpTarget s.pc index) := rfl

theorem exec_jr : exec (.jr rs) s = transfer s (s.reg rs) := rfl

theorem exec_jalr : exec (.jalr rd rs) s = transferLink s rd (s.reg rs) := rfl
end

/-! ## Conditional branches outside a delay slot (R162, R164 to R169) -/

/-- A branch whose test decides `p` leaves the target pending when `p` holds, and the address after the slot otherwise. -/
theorem branch_free {s : State} (hp : s.pending = none) (offset : BitVec 16) {cond : Bool} {p : Prop} [Decidable p]
    (hc : cond = true ↔ p) :
    ∃ t, branch s cond offset = .next t ∧
      BranchesOnly s t (if p then BitVec.ofInt 32 (s.pc.toNat + 4 + 4 * offset.toInt) else s.pc + 8) := by
  rw [branch, branchTarget_eq, if_congr hc rfl rfl]
  exact transfer_free hp _

/-- Settles O30, by the equality tests. -/
theorem branchOnEquality : Obligations.BranchOnEquality := by
  intro rs rt offset s
  rw [exec_beq, exec_bne]
  exact ⟨decodeWord_encode (.beq rs rt offset), decodeWord_encode (.bne rs rt offset),
    fun hp => ⟨branch_free hp offset beq_iff_eq, branch_free hp offset bne_iff_ne⟩⟩

/-- Settles O31: the four tests are signed comparisons with zero. -/
theorem branchOnSign : Obligations.BranchOnSign := by
  intro rs offset s
  rw [exec_bgez, exec_bgtz, exec_blez, exec_bltz]
  exact ⟨decodeWord_encode (.bgez rs offset), decodeWord_encode (.bgtz rs offset), decodeWord_encode (.blez rs offset),
    decodeWord_encode (.bltz rs offset),
    fun hp => ⟨branch_free hp offset (geZero_iff _), branch_free hp offset (gtZero_iff _),
      branch_free hp offset (leZero_iff _), branch_free hp offset (ltZero_iff _)⟩⟩

/-! ## Jumps outside a delay slot (R163, R170 to R173) -/

/-- Settles O32: the word the statement describes is `jumpTarget`. -/
theorem directJumps : Obligations.DirectJumps := by
  intro index s a ha
  obtain rfl : a = jumpTarget s.pc index := BitVec.eq_of_toNat_eq (ha.trans (jumpTarget_toNat s.pc index).symm)
  rw [exec_j, exec_jal]
  exact ⟨decodeWord_encode (.j index), decodeWord_encode (.jal index),
    fun hp => ⟨transfer_free hp _, transferLink_free hp 31 _⟩⟩

/-- Settles O33: the target handed to the shared ending is the register's value in the state before it. -/
theorem registerJumps : Obligations.RegisterJumps := by
  intro rd rs s
  rw [exec_jr, exec_jalr]
  exact ⟨decodeWord_encode (.jr rs), decodeWord_encode (.jalr rd rs),
    fun hp => ⟨transfer_free hp _, transferLink_free hp rd _⟩⟩

/-! ## In the delay slot (R160, R161) -/

/-- A control transfer in a delay slot raises before it does anything else. -/
theorem exec_transfer_in_slot {i : Instr} {s : State} (hi : i.isControlTransfer = true) (hp : s.pending ≠ none) :
    exec i s = takeException (.controlTransferInDelaySlot s.pc) s := by
  cases i with
  | beq => exact transfer_in_slot hp _
  | bne => exact transfer_in_slot hp _
  | bgez => exact transfer_in_slot hp _
  | bgtz => exact transfer_in_slot hp _
  | blez => exact transfer_in_slot hp _
  | bltz => exact transfer_in_slot hp _
  | j => exact transfer_in_slot hp _
  | jal => exact transferLink_in_slot hp _ _
  | jr => exact transfer_in_slot hp _
  | jalr => exact transferLink_in_slot hp _ _
  | _ => cases hi

/-- Settles O34, by the ten control transfers. -/
theorem controlTransferInDelaySlotFaults : Obligations.ControlTransferInDelaySlotFaults := by
  intro i s hi hp
  rw [exec_transfer_in_slot hi hp]
  exact takeException_spec _ s

/-- What completes in a delay slot is no control transfer and goes to the pending address. -/
theorem exec_running_of_pending {j : Instr} {t u : State} {a : Word} (hp : t.pending = some a) (h : exec j t = .next u)
    (hr : u.status = .running) : j.isControlTransfer = false ∧ u.pc = a ∧ u.pending = none := by
  obtain ⟨hj, hu⟩ | ⟨-, hnone, -⟩ := exec_inv_running h hr
  · obtain ⟨hslot, -, hend⟩ := hu.goesOn
    exact ⟨hj, hslot a hp, hend⟩
  · cases hp.symm.trans hnone

/-- Settles O37: the transfer leaves its target pending at the slot, and what completes there goes to it. -/
theorem delaySlotRunsBeforeTheTarget : Obligations.DelaySlotRunsBeforeTheTarget := by
  intro i j s t u hi _ ht htr hu hur
  obtain ⟨hi', -⟩ | ⟨-, -, htrans⟩ := exec_inv_running ht htr
  · cases hi.symm.trans hi'
  · obtain ⟨a, hpc, hp⟩ := htrans.delays
    obtain ⟨hj, rfl, hend⟩ := exec_running_of_pending hp hu hur
    exact ⟨hpc, hj, hp, hend⟩

/-! ## A misaligned target (R17, R175) -/

/-- JR and JALR complete outside a delay slot, whatever the register holds (R175). -/
theorem exec_registerJump_free {i : Instr} {rs : RegNum} {s : State} (hi : i = .jr rs ∨ ∃ rd, i = .jalr rd rs)
    (hp : s.pending = none) : ∃ t, exec i s = .next t ∧ t.pending = some (s.reg rs) ∧ t.status = s.status := by
  obtain rfl | ⟨rd, rfl⟩ := hi
  · obtain ⟨t, ht, -, ⟨-, hpend⟩, -, -, hstatus, -⟩ := transfer_free hp (s.reg rs)
    exact ⟨t, ht, hpend, hstatus⟩
  · obtain ⟨t, ht, -, ⟨-, hpend⟩, -, -, hstatus, -⟩ := transferLink_free hp rd (s.reg rs)
    exact ⟨t, ht, hpend, hstatus⟩

/-- A running step at a misaligned pc raises before the fetch reads anything (R17). -/
theorem step_misaligned {s : State} (hs : s.status = .running) (hpc : s.pc.toNat % 4 ≠ 0) :
    step s = takeException (.addressError .fetch s.pc) s := by
  rw [step, hs, fetchInstr_error (fetchWord_misaligned hpc)]

/-- Settles O15: the jump leaves the register's value pending, the slot ends with pc there, and the fetch tests it. -/
theorem misalignedTargetFaultsAtTheFetch : Obligations.MisalignedTargetFaultsAtTheFetch := by
  intro i j rs s u hi hs hp halign
  obtain ⟨t, ht, hpend, hstatus⟩ := exec_registerJump_free hi hp
  refine ⟨t, ht, hstatus.trans hs, fun hu hur => ?_⟩
  obtain ⟨-, hpc, -⟩ := exec_running_of_pending hpend hu hur
  rw [← hpc] at halign ⊢
  rw [step_misaligned hur halign]
  exact takeException_spec _ u

end Sys2Proof.Machine
end

section
/-! The loads and stores (44_load_store.md): each arm of `exec` under what the checks of its access and the region of its
first byte say, and the endings of a device read and of the two kinds of store. -/

namespace Sys2Proof.Machine

/-- Settles O39: the model's sum with the sign-extended offset is the sum of the numbers modulo 2^32. -/
theorem effectiveAddress : Obligations.EffectiveAddress := add_sextImm_eq_ofInt

/-! ## The endings: a register written after a device read, memory written, an output event -/

theorem writeBack_drawn_spec (s : State) (rd : RegNum) (v : Word) :
    ∃ t, writeBack s.drawn rd v = .next t ∧ RegWritten s t rd v ∧ GoesOn s t ∧ SameMemory s t ∧ t.cfg = s.cfg ∧
      t.status = s.status ∧ t.draws = s.draws + 1 ∧ t.outputs = s.outputs :=
  ⟨_, rfl, regWritten_setReg s.drawn rd v, goesOn_advance s.drawn, fun _ => rfl, rfl, rfl, rfl, rfl⟩

theorem setMem_advance_frame (s : State) (m : Memory) :
    SameRegs s (s.setMem m).advance ∧ GoesOn s (s.setMem m).advance ∧ SameRest s (s.setMem m).advance :=
  ⟨fun _ => rfl, goesOn_advance (s.setMem m), rfl, rfl, rfl, rfl⟩

theorem emit_advance_frame (s : State) (o : DeviceWrite) :
    SameMemory s (s.emit o).advance ∧ SameRegs s (s.emit o).advance ∧ GoesOn s (s.emit o).advance ∧
      (s.emit o).advance.cfg = s.cfg ∧ (s.emit o).advance.status = s.status ∧ (s.emit o).advance.draws = s.draws :=
  ⟨fun _ => rfl, fun _ => rfl, goesOn_advance (s.emit o), rfl, rfl, rfl⟩

/-! ## The checks of the accesses (R36, R37), as their outcomes -/

theorem loadCheck_unmapped {c : Config} {va : Word} {n : Nat}
    (h : ∃ k < n, regionOf c (physAddr c va + k) = .nothing) : loadCheck c va n = some (.unmapped .load va) :=
  loadCheck_some_iff.2 ⟨rfl, h⟩

section
variable {s : State} {rt base : RegNum} {offset : BitVec 16} {va : Word} (hva : va = effectiveAddr (s.reg base) offset)
include hva

/-! ## LB (R191) -/

theorem exec_lb_device (hd : regionOf s.cfg (physAddr s.cfg va) = .device) :
    exec (.lb rt offset base) s =
      writeBack s.drawn rt (((Config.deviceDraw s.draws).setWidth 8).signExtend 32) := by
  have hc : loadCheck s.cfg va 1 = none := loadCheck_none_iff.2 (by simp [hd])
  rw [exec_lb, ← hva, memReadByte, hc, translate_fst, if_pos hd]
  rfl

theorem exec_lb_raises {e : Cause} (hc : loadCheck s.cfg va 1 = some e) :
    exec (.lb rt offset base) s = takeException e s := by
  rw [exec_lb, ← hva, memReadByte, hc]
  rfl

/-! ## LW (R192): the first byte's region decides what is read -/

section
variable (ha : va.toNat % 4 = 0)
include ha

theorem exec_lw_aligned : exec (.lw rt offset base) s = finishLoad s rt (memReadWord s va) := by
  rw [exec_lw, ← hva, if_pos ((wordAligned_iff _).2 ha)]

theorem exec_lw_first_ram (hc : loadCheck s.cfg va 4 = none) (hr : regionOf s.cfg (physAddr s.cfg va) = .ram) :
    exec (.lw rt offset base) s = writeBack s rt (s.mem.readWord (physAddr s.cfg va)) := by
  rw [exec_lw_aligned hva ha, memReadWord, hc, translate_fst, if_neg (by simp [hr])]
  rfl

theorem exec_lw_device (hc : loadCheck s.cfg va 4 = none) (hd : regionOf s.cfg (physAddr s.cfg va) = .device) :
    exec (.lw rt offset base) s = writeBack s.drawn rt (Config.deviceDraw s.draws) := by
  rw [exec_lw_aligned hva ha, memReadWord, hc, translate_fst, if_pos hd]
  rfl

theorem exec_lw_raises {e : Cause} (hc : loadCheck s.cfg va 4 = some e) :
    exec (.lw rt offset base) s = takeException e s := by
  rw [exec_lw_aligned hva ha, memReadWord, hc]
  rfl
end

/-! ## SB (R193) -/

theorem exec_sb_device (hd : regionOf s.cfg (physAddr s.cfg va) = .device)
    (ht : inText s.cfg (physAddr s.cfg va) = false) :
    exec (.sb rt offset base) s = .next (s.emit (.byte (physAddr s.cfg va) (byteOf (s.reg rt) 0))).advance := by
  have hc : storeCheck s.cfg va 1 = none := storeCheck_none_iff.2 ⟨by simp [hd], by simpa using ht⟩
  rw [exec_sb, ← hva, memWriteByte, hc, translate_fst, if_pos hd]
  rfl

theorem exec_sb_raises {e : Cause} (hc : storeCheck s.cfg va 1 = some e) :
    exec (.sb rt offset base) s = takeException e s := by
  rw [exec_sb, ← hva, memWriteByte, hc]
  rfl

/-! ## SW (R194): the first byte's region decides where the word goes -/

section
variable (ha : va.toNat % 4 = 0)
include ha

theorem exec_sw_aligned : exec (.sw rt offset base) s = finishStore s (memWriteWord s va (s.reg rt)) := by
  rw [exec_sw, ← hva, if_pos ((wordAligned_iff _).2 ha)]

theorem exec_sw_first_ram (hc : storeCheck s.cfg va 4 = none) (hr : regionOf s.cfg (physAddr s.cfg va) = .ram) :
    exec (.sw rt offset base) s = .next (s.setMem (s.mem.writeWord (physAddr s.cfg va) (s.reg rt))).advance := by
  rw [exec_sw_aligned hva ha, memWriteWord, hc, translate_fst, if_neg (by simp [hr])]
  rfl

theorem exec_sw_device (hc : storeCheck s.cfg va 4 = none) (hd : regionOf s.cfg (physAddr s.cfg va) = .device) :
    exec (.sw rt offset base) s = .next (s.emit (.word (physAddr s.cfg va) (s.reg rt))).advance := by
  rw [exec_sw_aligned hva ha, memWriteWord, hc, translate_fst, if_pos hd]
  rfl

theorem exec_sw_raises {e : Cause} (hc : storeCheck s.cfg va 4 = some e) :
    exec (.sw rt offset base) s = takeException e s := by
  rw [exec_sw_aligned hva ha, memWriteWord, hc]
  rfl
end
end

/-! ## The obligations -/

/-- Settles O41, by the region of the byte; the device's byte is the low 8 bits of the draw. -/
theorem loadByte : Obligations.LoadByte := by
  intro rt offset base s va hva
  refine ⟨decodeWord_encode (.lb rt offset base), fun hr => ?_, fun hd => ?_, fun hn => ?_⟩
  · rw [exec_lb_ram hva hr]
    exact writeBack_spec s rt _
  · rw [exec_lb_device hva hd]
    obtain ⟨t, ht, hreg, hrest⟩ :=
      writeBack_drawn_spec s rt (((Config.deviceDraw s.draws).setWidth 8).signExtend 32)
    exact ⟨t, (Config.deviceDraw s.draws).setWidth 8, ht, hreg, BitVec.toNat_setWidth .., hrest⟩
  · rw [exec_lb_raises hva (loadCheck_unmapped ⟨0, Nat.one_pos, hn⟩)]
    exact takeException_spec _ s

/-- Settles O42: alignment first, then the check of the four bytes, then the region of the first. -/
theorem loadWord : Obligations.LoadWord := by
  intro rt offset base s va hva
  refine ⟨decodeWord_encode (.lw rt offset base), fun ha => ?_, fun ha hmapped => ⟨fun hr => ?_, fun hd => ?_⟩,
    fun ha hn => ?_⟩
  · rw [exec_lw_misaligned hva ha]
    exact takeException_spec _ s
  · rw [exec_lw_first_ram hva ha (loadCheck_none_iff.2 hmapped) hr]
    exact writeBack_spec s rt _
  · rw [exec_lw_device hva ha (loadCheck_none_iff.2 hmapped) hd]
    exact writeBack_drawn_spec s rt _
  · rw [exec_lw_raises hva ha (loadCheck_unmapped hn)]
    exact takeException_spec _ s

/-- Settles O43: the byte described is byte 0 of the register; the checks, then the region, say where it goes. -/
theorem storeByte : Obligations.StoreByte := by
  intro rt offset base s va b hva hb
  obtain rfl : b = byteOf (s.reg rt) 0 := BitVec.eq_of_toNat_eq (by simpa [byteOf_toNat] using hb)
  refine ⟨decodeWord_encode (.sb rt offset base), fun hr ht => ?_, fun hd ht => ?_, fun hn => ?_, fun hmapped ht => ?_⟩
  · exact ⟨_, exec_sb_ram hva hr ht, Memory.read_write_same .., fun a ha => Memory.read_write_other _ _ (by omega),
      setMem_advance_frame s _⟩
  · exact ⟨_, exec_sb_device hva hd ht, rfl, emit_advance_frame s _⟩
  · rw [exec_sb_raises hva (storeCheck_unmapped ⟨0, Nat.one_pos, hn⟩)]
    exact takeException_spec _ s
  · rw [exec_sb_raises hva (storeCheck_text (by simpa using hmapped) ⟨0, Nat.one_pos, ht⟩)]
    exact takeException_spec _ s

/-- Settles O44: alignment first, then the checks of the four bytes, then the region of the first. -/
theorem storeWord : Obligations.StoreWord := by
  intro rt offset base s va hva
  refine ⟨decodeWord_encode (.sw rt offset base), fun ha => ?_,
    fun ha hmapped ht => ⟨fun hr => ?_, fun hd => ?_⟩, fun ha hn => ?_, fun ha hmapped ht => ?_⟩
  · rw [exec_sw_misaligned hva ha]
    exact takeException_spec _ s
  · refine ⟨_, exec_sw_first_ram hva ha (storeCheck_none_iff.2 ⟨hmapped, ht⟩) hr, fun k hk => ?_,
      fun a hout => Memory.read_writeWord_other _ _ hout, setMem_advance_frame s _⟩
    exact (congrArg BitVec.toNat (Memory.read_writeWord_byte _ _ _ hk)).trans (byteOf_toNat _ k)
  · exact ⟨_, exec_sw_device hva ha (storeCheck_none_iff.2 ⟨hmapped, ht⟩) hd, rfl, emit_advance_frame s _⟩
  · rw [exec_sw_raises hva ha (storeCheck_unmapped hn)]
    exact takeException_spec _ s
  · rw [exec_sw_raises hva ha (storeCheck_text hmapped ht)]
    exact takeException_spec _ s

end Sys2Proof.Machine
end

section
/-! Faults (60_exceptions.md): what a raise leaves, which instruction raises what, and the order in which a step tests
for the causes. -/

namespace Sys2Proof.Machine

/-! ## A step completes or raises (R214, R223, R224) -/

theorem Completed.status {i : Instr} {s t : State} (h : Completed i s t) : t.status = s.status := by
  cases h <;> rfl

theorem Transferred.status {i : Instr} {s t : State} (h : Transferred i s t) : t.status = s.status := by
  cases h <;> rfl

/-- A step's next state is the state before it with a fault recorded, or still runs. -/
theorem step_raised_or_running {s t : State} (h : step s = .next t) : (∃ c, t = s.raised c) ∨ t.status = .running := by
  have hs := running_of_step h
  obtain ⟨c, -, hc⟩ | ⟨i, -, hi⟩ := step_cases hs
  · exact .inl ⟨c, Host.Outcome.next.inj (h.symm.trans hc)⟩
  · obtain hraised | ⟨-, ht⟩ | ⟨-, -, ht⟩ := exec_inv (hi ▸ h)
    · exact .inl hraised
    · exact .inr (ht.status.trans hs)
    · exact .inr (ht.status.trans hs)

/-- Settles O11: what a step raises is the state before it but for `status`, and a fault state takes no step. -/
theorem faultsArePrecise : Obligations.FaultsArePrecise := by
  intro s t _ h
  obtain ⟨c, rfl⟩ | hr := step_raised_or_running h
  · refine .inr ⟨c, rfl, fun u hu => ?_⟩
    cases (faultedMachineTakesNoStep (s.raised c) c rfl).symm.trans hu
  · exact .inl hr

/-! ## The causes of each instruction (R211, R212, R216, R217) -/

/-- The causes instruction `i` can raise in state `s`, with what is recorded where the spec says it is the pc. -/
inductive RaisableBy (i : Instr) (s : State) : Cause → Prop where
  | overflow (hi : i.mnemonic ∈ [Mnemonic.add, .addi, .sub]) : RaisableBy i s (.integerOverflow s.pc)
  | inSlot (hi : i.isControlTransfer = true) : RaisableBy i s (.controlTransferInDelaySlot s.pc)
  | misalignedLoad (va : Word) (hi : i.mnemonic = .lw) : RaisableBy i s (.addressError .load va)
  | misalignedStore (va : Word) (hi : i.mnemonic = .sw) : RaisableBy i s (.addressError .store va)
  | unmappedLoad (va : Word) (hi : i.mnemonic ∈ [Mnemonic.lb, .lw]) : RaisableBy i s (.unmapped .load va)
  | unmappedStore (va : Word) (hi : i.isStore = true) : RaisableBy i s (.unmapped .store va)
  | text (va : Word) (hi : i.isStore = true) : RaisableBy i s (.storeToText va)

section
variable {s t : State}

theorem writeBack_status {rd : RegNum} {v : Word} (h : writeBack s rd v = .next t) : t.status = s.status := by
  cases h
  rfl

theorem writeUnlessOverflow_status {rd : RegNum} {tmp : BitVec 33} (h : writeUnlessOverflow s rd tmp = .next t) :
    t.status = s.status ∨ t.status = .fault (.integerOverflow s.pc) := by
  obtain ⟨-, h'⟩ | ⟨-, h'⟩ := writeUnlessOverflow_cases s rd tmp <;>
    obtain rfl : t = _ := Host.Outcome.next.inj (h.symm.trans h')
  · exact .inr rfl
  · exact .inl rfl

theorem transfer_status {a : Word} (h : transfer s a = .next t) :
    t.status = s.status ∨ t.status = .fault (.controlTransferInDelaySlot s.pc) := by
  unfold transfer at h
  split at h <;> cases h
  · exact .inr rfl
  · exact .inl rfl

theorem transferLink_status {link : RegNum} {a : Word} (h : transferLink s link a = .next t) :
    t.status = s.status ∨ t.status = .fault (.controlTransferInDelaySlot s.pc) := by
  unfold transferLink at h
  split at h <;> cases h
  · exact .inr rfl
  · exact .inl rfl

variable {rt base : RegNum} {offset : BitVec 16}

/-- A word load completes or raises AddressError(LOAD) or Unmapped(LOAD) (R192). -/
theorem exec_lw_status (h : exec (.lw rt offset base) s = .next t) :
    t.status = s.status ∨
      ∃ va, t.status = .fault (.addressError .load va) ∨ t.status = .fault (.unmapped .load va) := by
  by_cases ha : (effectiveAddr (s.reg base) offset).toNat % 4 = 0
  · rw [exec_lw_aligned rfl ha] at h
    obtain ⟨e, hc, hm⟩ | ⟨-, -, hm⟩ | ⟨-, -, hm⟩ := memReadWord_cases s (effectiveAddr (s.reg base) offset) <;>
      obtain rfl := Host.Outcome.next.inj ((hm ▸ h).symm)
    · obtain ⟨rfl, -⟩ := loadCheck_some_iff.1 hc
      exact .inr ⟨_, .inr rfl⟩
    · exact .inl rfl
    · exact .inl rfl
  · rw [exec_lw_misaligned rfl ha] at h
    cases h
    exact .inr ⟨_, .inl rfl⟩

/-- A word store completes or raises AddressError(STORE), Unmapped(STORE) or StoreToText (R194). -/
theorem exec_sw_status (h : exec (.sw rt offset base) s = .next t) :
    t.status = s.status ∨ ∃ va, t.status = .fault (.addressError .store va) ∨
      t.status = .fault (.unmapped .store va) ∨ t.status = .fault (.storeToText va) := by
  by_cases ha : (effectiveAddr (s.reg base) offset).toNat % 4 = 0
  · rw [exec_sw_aligned rfl ha] at h
    obtain ⟨e, hc, hm⟩ | ⟨-, -, hm⟩ | ⟨-, -, hm⟩ :=
        memWriteWord_cases s (effectiveAddr (s.reg base) offset) (s.reg rt) <;>
      obtain rfl := Host.Outcome.next.inj ((hm ▸ h).symm)
    · obtain rfl | rfl := storeCheck_cause hc
      · exact .inr ⟨_, .inr (.inl rfl)⟩
      · exact .inr ⟨_, .inr (.inr rfl)⟩
    · exact .inl rfl
    · exact .inl rfl
  · rw [exec_sw_misaligned rfl ha] at h
    cases h
    exact .inr ⟨_, .inl rfl⟩

end

/-- An instruction leaves `status` alone or raises one of its causes, by the ending its arm of `exec` has. -/
theorem exec_status {i : Instr} {s t : State} (h : exec i s = .next t) :
    t.status = s.status ∨ ∃ c, t.status = .fault c ∧ RaisableBy i s c := by
  cases i with
  | add | addi | sub =>
    exact (writeUnlessOverflow_status h).imp_right fun ht => ⟨_, ht, .overflow (by simp [Instr.mnemonic])⟩
  | addu | addiu | slt | mul | and | andi | lui | or | ori | xor | xori | sllv | sll | srav | sra | srlv | srl =>
    exact .inl (writeBack_status h)
  | beq | bne | bgez | bgtz | blez | bltz | j | jr =>
    exact (transfer_status h).imp_right fun ht => ⟨_, ht, .inSlot rfl⟩
  | jal | jalr => exact (transferLink_status h).imp_right fun ht => ⟨_, ht, .inSlot rfl⟩
  | lb =>
    exact (exec_lb_status h).imp_right fun ⟨va, ht⟩ => ⟨_, ht, .unmappedLoad va (by simp [Instr.mnemonic])⟩
  | lw =>
    obtain hs | ⟨va, ht | ht⟩ := exec_lw_status h
    · exact .inl hs
    · exact .inr ⟨_, ht, .misalignedLoad va rfl⟩
    · exact .inr ⟨_, ht, .unmappedLoad va (by simp [Instr.mnemonic])⟩
  | sb =>
    obtain hs | ⟨va, ht | ht⟩ := exec_sb_status h
    · exact .inl hs
    · exact .inr ⟨_, ht, .unmappedStore va rfl⟩
    · exact .inr ⟨_, ht, .text va rfl⟩
  | sw =>
    obtain hs | ⟨va, ht | ht | ht⟩ := exec_sw_status h
    · exact .inl hs
    · exact .inr ⟨_, ht, .misalignedStore va rfl⟩
    · exact .inr ⟨_, ht, .unmappedStore va rfl⟩
    · exact .inr ⟨_, ht, .text va rfl⟩

/-- Settles O13: the fault recorded is one of the instruction's causes. -/
theorem causesBelongToTheirInstructions : Obligations.CausesBelongToTheirInstructions := by
  intro i s t c h hs ht
  obtain hsame | ⟨c', ht', hc⟩ := exec_status h
  · cases ht.symm.trans (hsame.trans hs)
  · obtain rfl : c = c' := Status.fault.inj (ht.symm.trans ht')
    cases hc with
    | overflow hi | inSlot hi => exact ⟨hi, rfl⟩
    | misalignedLoad _ hi | misalignedStore _ hi | unmappedLoad _ hi | unmappedStore _ hi | text _ hi => exact hi

/-! ## Faults before the instruction (R22 steps 1 to 3) -/

theorem step_unmapped {s : State} (hs : s.status = .running) (hpc : s.pc.toNat % 4 = 0)
    (hr : ¬ ∀ k < 4, regionOf s.cfg (physAddr s.cfg s.pc + k) = .ram) :
    step s = takeException (.unmapped .fetch s.pc) s := by
  rw [step, hs, fetchInstr_error (fetchWord_unmapped hpc hr)]

theorem step_reserved {s : State} {e : DecodeError} (hs : s.status = .running) (hpc : s.pc.toNat % 4 = 0)
    (hr : ∀ k < 4, regionOf s.cfg (physAddr s.cfg s.pc + k) = .ram)
    (hd : decodeIn s.cfg.profile (s.mem.readWord (physAddr s.cfg s.pc)) = .error e) :
    step s = takeException (.reservedInstruction (s.mem.readWord (physAddr s.cfg s.pc))) s := by
  rw [step, hs, fetchInstr_reserved (fetchWord_ram hpc hr) hd]

/-- The decoder refuses a word that meets no row the profile enables: a decoded word meets its own row (R76). -/
theorem decodeIn_error_of_no_row {p : Profile} {w : Word}
    (h : ∀ r ∈ opcodeTable, r.mnemonic ∈ p.mnemonics → w &&& r.mask ≠ r.bits) : ∃ e, decodeIn p w = .error e := by
  cases hd : decodeIn p w with
  | error e => exact ⟨e, rfl⟩
  | ok i =>
    obtain ⟨hw, hi⟩ := (decodeIn_ok_iff p w i).1 hd
    obtain ⟨r, hr, hm, hmatch⟩ := row_of_decodeWord hw
    exact absurd ((r.matches_eq_true_iff w).1 hmatch) (h r hr (hm ▸ hi))

/-- Settles O16: the decoder refuses the word the fetch answers. -/
theorem reservedWordFaults : Obligations.ReservedWordFaults := by
  rintro s _ hs hpc hram rfl hno
  obtain ⟨e, hd⟩ := decodeIn_error_of_no_row hno
  rw [step_reserved hs hpc hram hd]
  exact takeException_spec _ s

/-! ## The priority of causes (R222) -/

/-- Settles O17: the fetch and the decoder raise in the order they run; past both, the step is the instruction, and the
statements about the instructions say what each raises under which condition. -/
theorem faultPriority : Obligations.FaultPriority := by
  intro s hs
  refine ⟨fun hpc => ?_, fun hpc => or_iff_not_imp_left.2 fun hr => ?_,
    fun hpc hram => ⟨fun e hd => ?_, fun i hd => ?_⟩⟩
  · rw [step_misaligned hs hpc]
    exact takeException_spec _ s
  · rw [step_unmapped hs hpc hr]
    exact takeException_spec _ s
  · rw [step_reserved hs hpc hram hd]
    exact takeException_spec _ s
  · rw [stepRunsTheDecodedInstruction s i hs hpc hram hd]
    refine ⟨controlTransferInDelaySlotFaults i s, fun rd rs rt => ?_, fun rt rs imm => ?_,
      fun rt offset base va hva => ?_⟩
    · obtain ⟨-, -, -, hadd, -, hsub⟩ := addAndSub rd rs rt s
      exact ⟨(· ▸ hadd), (· ▸ hsub)⟩
    · obtain ⟨-, -, haddi⟩ := addImmediate rt rs imm s
      exact (· ▸ haddi)
    · obtain ⟨-, -, -, lbUnmapped⟩ := loadByte rt offset base s va hva
      obtain ⟨-, lwMisaligned, -, lwUnmapped⟩ := loadWord rt offset base s va hva
      obtain ⟨-, -, -, sbUnmapped, sbText⟩ :=
        storeByte rt offset base s va (.ofNat 8 (s.reg rt).toNat) hva (BitVec.toNat_ofNat ..)
      obtain ⟨-, swMisaligned, -, swUnmapped, swText⟩ := storeWord rt offset base s va hva
      exact ⟨(· ▸ lwMisaligned), (· ▸ swMisaligned), (· ▸ lwUnmapped), (· ▸ lbUnmapped), (· ▸ swUnmapped),
        (· ▸ sbUnmapped), (· ▸ swText), (· ▸ sbText)⟩

end Sys2Proof.Machine
end

section
/-! What a launch leaves (R240 to R243), and the end of a run (R244). -/

namespace Sys2Proof.Machine

/-! ## The state after reset -/

@[simp] theorem State.launch_cfg (l : Launch) : (State.launch l).cfg = l.cfg := rfl
@[simp] theorem State.launch_pc (l : Launch) : (State.launch l).pc = l.resetPc := rfl
@[simp] theorem State.launch_gpr (l : Launch) : (State.launch l).gpr = l.initGpr := rfl
@[simp] theorem State.launch_mem (l : Launch) : (State.launch l).mem = l.image := rfl
@[simp] theorem State.launch_pending (l : Launch) : (State.launch l).pending = none := rfl
@[simp] theorem State.launch_status (l : Launch) : (State.launch l).status = .running := rfl

/-- Settles O8, field by field; register 0 reads zero whatever `INIT_GPR` is. -/
theorem resetState : Obligations.ResetState := fun l =>
  ⟨State.launch_pending l, State.launch_status l, State.reg_zero _, State.launch_pc l,
    State.launch_gpr l, State.launch_mem l⟩

theorem Launch.wellFormed_iff (l : Launch) :
    l.wellFormed = true ↔ l.cfg.segmap.wellFormed = true ∧ l.resetPc.toNat % 4 = 0 ∧ l.image.wf = true := by
  simp only [Launch.wellFormed, Bool.and_eq_true, wordAligned_iff, and_assoc]

theorem State.launch_meets_invariants {l : Launch} (h : l.wellFormed = true) :
    (State.launch l).mem.wf = true ∧ (State.launch l).pc.toNat % 4 = 0 ∧
      (State.launch l).cfg.segmap.wellFormed = true := by
  obtain ⟨hmap, hpc, himage⟩ := l.wellFormed_iff.1 h
  rw [State.launch_mem, State.launch_pc, State.launch_cfg]
  exact ⟨himage, hpc, hmap⟩

theorem Launch.default_wellFormed : Launch.default.wellFormed = true := by decide

/-- Settles O9: reset is the default launch, which is a legal one. -/
theorem resetMeetsInvariants : Obligations.ResetMeetsInvariants :=
  State.launch_meets_invariants Launch.default_wellFormed

/-! ## The end of a run -/

theorem State.ended_iff (s : State) :
    s.ended = true ↔ s.status = .running ∧ s.cfg.endPc = some s.pc ∧ s.pending = none := by
  simp only [State.ended, Bool.and_eq_true, beq_iff_eq, and_assoc]

/-- The test for the end stands before the number of steps is looked at, and before the fetch. -/
theorem runToEnd_of_ended {s : State} (h : s.ended = true) (n : Nat) : runToEnd n s = .ended s := by
  obtain ⟨hs, -, -⟩ := s.ended_iff.1 h
  rw [runToEnd.eq_def]
  simp only [hs, h, if_true]

/-- Settles O58: the three hypotheses are the test of R244. -/
theorem runEndsBeforeFetchingAtEndPc : Obligations.RunEndsBeforeFetchingAtEndPc :=
  fun n s hs hpc hp => runToEnd_of_ended (s.ended_iff.2 ⟨hs, hpc, hp⟩) n

end Sys2Proof.Machine
end

section
/-! Words the spec writes out (95_test_vectors.md sections 1 and 2). -/

namespace Sys2Proof

theorem decodeWord_of_encode_eq {i : Instr} {w : Word} (h : encode i = w) : decodeWord w = .ok i :=
  h ▸ decodeWord_encode i

/-- Settles O1: each word is the one the encoder writes for its instruction, and decoding gives that back. -/
theorem specWordsDecode : Obligations.SpecWordsDecode := by
  refine ⟨?add, ?addi, ?addu, ?mul, ?xor, ?lui, ?sllv, ?sra, ?blez, ?jal, ?jalr, ?lb, ?sw⟩
  all_goals
    apply decodeWord_of_encode_eq
    decide

end Sys2Proof
end
